-- ==== Sys2Proof/Word.lean ====
section
/-!
DEFINITION. The byte, the three wire constants and the one arithmetic operation of the block
(spec/00_scope.md R7, R9; spec/10_state.md R20).
-/

namespace Sys2Proof

/-- A byte: an unsigned 8-bit value, bit 7 the most significant (R9). -/
abbrev Byte := BitVec 8

/-- The frame marker that opens a packet, `0x01` (R20). -/
def START : Byte := 0x01

/-- The frame marker that closes a packet, `0x1A` (R20). -/
def END : Byte := 0x1A

/-- The escape marker, `0x1B` (R20). -/
def ESCAPE : Byte := 0x1B

/-- The number by which the model names a Reassembler. The protocol has no such identifier (R146): it stands for
the host's own reference to the one it means (log 7). -/
abbrev RxId := Nat

end Sys2Proof
end

