-- ==== Sys2Proof/Config.lean ====
section
/-!
DEFINITION. What an implementation fixes (the capacity of the receive buffer) and the one free value.
-/

namespace Sys2Proof

/-- The implementation parameter of spec/00_scope.md R8. The spec gives the model BUF_CAP as an argument; here it
travels with the state, and no instruction writes it (log 2). -/
structure Config where
  /-- BUF_CAP in bytes of raw buffer content; `none` is infinity, the document's own behaviour (92 D3). -/
  bufCap : Option Nat
  deriving DecidableEq, Repr

/-- What RXBUF holds after the `k`-th BufferOverflow of a run: "RXBUF is unspecified from then on" (60 R134), "any
value" (93 U4). A free value with no body: nothing can be proved of it (log 4). -/
opaque Config.freeBuf (k : Nat) : List Byte

end Sys2Proof
end

