-- ==== Sys2Proof/Syntax.lean ====
section
/-!
DEFINITION. The instruction type: one constructor per row of spec/opcode_table.json (31 rows). Operands: a payload, a
chunk, the byte a byte-class row matches, and for everything a Reassembler does, which one (`n`, log 7).
-/

namespace Sys2Proof

/-- The rows of the opcode table. A row that matches one fixed byte has no byte operand; a byte-class row carries the
byte it matched. -/
inductive Instr where
  /-- `ENCODE` (R80): payload `p` to one packet. -/
  | encode (p : List Byte)
  /-- `FEED` (R90, R134): chunk `c` to Reassembler `n`. -/
  | feed (n : RxId) (c : List Byte)
  /-- `RESET` (R160): construct Reassembler `n` anew. -/
  | reset (n : RxId)
  /-- `decode` (R74): `RESET` of a fresh Reassembler, here `n`, then `FEED` of `x` on it. -/
  | decode (n : RxId) (x : List Byte)
  /-- `ENC.START` (R82): emit the opening marker. -/
  | encStart
  /-- `ENC.PLAIN` (R83): a payload byte that is not special, emitted unchanged. -/
  | encPlain (d : Byte)
  /-- `ENC.STUFF_START` (R84): the payload byte `0x01`. -/
  | encStuffStart
  /-- `ENC.STUFF_END` (R85): the payload byte `0x1A`. -/
  | encStuffEnd
  /-- `ENC.STUFF_ESCAPE` (R86): the payload byte `0x1B`. -/
  | encStuffEscape
  /-- `ENC.END` (R87): emit the closing marker. -/
  | encEnd
  /-- `RX.APPEND` (R91): step 1 of `FEED`. -/
  | rxAppend (n : RxId) (c : List Byte)
  /-- `RX.SCAN_START` (R92): step 2a. -/
  | rxScanStart (n : RxId)
  /-- `RX.SCAN_END` (R93): step 2b. -/
  | rxScanEnd (n : RxId)
  /-- `RX.EXTRACT` (R94): step 2c. -/
  | rxExtract (n : RxId)
  /-- `RX.UNESCAPE` (R96): step 2d. -/
  | rxUnescape (n : RxId)
  /-- `RX.EMIT_ERR` (R97): step 2e. -/
  | rxEmitErr (n : RxId)
  /-- `RX.EMIT_OK` (R98): step 2f. -/
  | rxEmitOk (n : RxId)
  /-- `RX.RETURN` (R100): step 3. -/
  | rxReturn (n : RxId)
  /-- `SCAN.START` (R92, context A of R67): the byte looked at is START. -/
  | scanStart (n : RxId)
  /-- `SCAN.SKIP` (R92, context A): any other byte, passed over. -/
  | scanSkip (n : RxId) (b : Byte)
  /-- `SCAN.END` (R93, context B): the byte looked at is END. -/
  | scanEnd (n : RxId)
  /-- `SCAN.BODY` (R93, context B): any other byte, part of the interior. -/
  | scanBody (n : RxId) (b : Byte)
  /-- `UNESC.ESCAPE` (R105, context C): an ESCAPE met with `esc_pending` clear. -/
  | unescEscape (n : RxId)
  /-- `UNESC.LITERAL` (R106, context C): any other byte met with `esc_pending` clear. -/
  | unescLiteral (n : RxId) (b : Byte)
  /-- `UNESC.COMPLEMENT` (R107, context D): any byte met with `esc_pending` set. -/
  | unescComplement (n : RxId) (c : Byte)
  /-- `PAIR` (R63): the two bytes ESCAPE, `c` of an interior, standing for the byte `~c`. -/
  | pair (n : RxId) (c : Byte)
  /-- `PAIR.ILLEGAL` (R70): an unpaired ESCAPE immediately before the END of its frame. -/
  | pairIllegal (n : RxId)
  /-- `BYTE.HUNT_SKIP` (R113): a received byte that is not START, in phase HUNT. -/
  | byteHuntSkip (n : RxId) (b : Byte)
  /-- `BYTE.HUNT_START` (R114): a received START in phase HUNT. -/
  | byteHuntStart (n : RxId)
  /-- `BYTE.COLLECT_BODY` (R115): a received byte that is not END, in phase COLLECT. -/
  | byteCollectBody (n : RxId) (b : Byte)
  /-- `BYTE.COLLECT_END` (R116): a received END in phase COLLECT. -/
  | byteCollectEnd (n : RxId)
  deriving DecidableEq, Repr

/-- The Reassembler an instruction acts on; none for the Encoder's. -/
def Instr.target : Instr → Option RxId
  | .encode _ | .encStart | .encPlain _ | .encStuffStart | .encStuffEnd | .encStuffEscape | .encEnd => none
  | .feed n _ | .reset n | .decode n _ | .rxAppend n _ | .rxScanStart n | .rxScanEnd n | .rxExtract n
  | .rxUnescape n | .rxEmitErr n | .rxEmitOk n | .rxReturn n | .scanStart n | .scanSkip n _ | .scanEnd n
  | .scanBody n _ | .unescEscape n | .unescLiteral n _ | .unescComplement n _ | .pair n _ | .pairIllegal n
  | .byteHuntSkip n _ | .byteHuntStart n | .byteCollectBody n _ | .byteCollectEnd n => some n

end Sys2Proof
end

