-- ==== Sys2Proof/WellFormed.lean ====
section
/-!
DEFINITION. Which instructions are well formed: a byte-class row does not carry a byte that a more specific row of the
same context matches (the table's "except" lists; spec/30_encoding.md R66, R67, R68).
-/

namespace Sys2Proof

/-- The "except" lists of the opcode table, row by row. Every other operand may be anything. -/
def WellFormed : Instr → Bool
  | .encPlain d => d != START && d != END && d != ESCAPE
  | .scanSkip _ b => b != START
  | .scanBody _ b => b != END
  | .unescLiteral _ b => b != ESCAPE
  | .pair _ c => c != END
  | .byteHuntSkip _ b => b != START
  | .byteCollectBody _ b => b != END
  | .encode _ | .feed _ _ | .reset _ | .decode _ _ | .encStart | .encStuffStart | .encStuffEnd | .encStuffEscape
  | .encEnd | .rxAppend _ _ | .rxScanStart _ | .rxScanEnd _ | .rxExtract _ | .rxUnescape _ | .rxEmitErr _
  | .rxEmitOk _ | .rxReturn _ | .scanStart _ | .scanEnd _ | .unescEscape _ | .unescComplement _ _
  | .pairIllegal _ | .byteHuntStart _ | .byteCollectEnd _ => true

end Sys2Proof
end

