-- ==== Sys2Proof/Decode.lean ====
section
/-!
DEFINITION. The decoder, the encoder of wire words, and the opcode table's match, mask and except columns
(spec/30_encoding.md R60 to R72, spec/opcode_table.json). What a byte means depends on where the block stands when it
meets it (R67), so the decoder takes the context as an argument.
-/

namespace Sys2Proof

/-- Where a byte is met. -/
inductive Ctx where
  /-- The position before the first payload byte of a packet (R61 position 0). -/
  | packetFirst
  /-- A payload byte offered to the Encoder, classified alone (R66). -/
  | payload
  /-- The position after the last payload byte of a packet (R61 position n + 1). -/
  | packetLast
  /-- R67 context A: looking for START. -/
  | lookStart
  /-- R67 context B: looking for END. -/
  | lookEnd
  /-- R67 context C: unescaping, `esc_pending = false`, one byte at a time. -/
  | clear
  /-- R67 context D: unescaping, `esc_pending = true`. -/
  | escaped
  /-- R67 context C, one whole symbol of 1 or 2 bytes at a time (R62, R72). -/
  | symbol
  /-- A received byte in phase HUNT (R113, R114). -/
  | hunt
  /-- A received byte in phase COLLECT (R115, R116). -/
  | collect
  deriving DecidableEq, Repr

/-- Why bytes do not decode. -/
inductive DecodeError where
  /-- There is no byte to decode. -/
  | noByte
  /-- A symbol of an interior begins with ESCAPE and nothing follows it. -/
  | halfPair
  /-- The byte at the first position of a packet is not START. -/
  | notStart (b : Byte)
  /-- The byte at the last position of a packet is not END. -/
  | notEnd (b : Byte)
  deriving DecidableEq, Repr

/-- R66: the class of a payload byte, decided by the byte alone. -/
def decodePayload (d : Byte) : Instr :=
  if d = START then .encStuffStart
  else if d = END then .encStuffEnd
  else if d = ESCAPE then .encStuffEscape
  else .encPlain d

/-- R67 context A. -/
def decodeLookStart (n : RxId) (b : Byte) : Instr :=
  if b = START then .scanStart n else .scanSkip n b

/-- R67 context B. -/
def decodeLookEnd (n : RxId) (b : Byte) : Instr :=
  if b = END then .scanEnd n else .scanBody n b

/-- R67 context C. -/
def decodeClear (n : RxId) (b : Byte) : Instr :=
  if b = ESCAPE then .unescEscape n else .unescLiteral n b

/-- R113, R114. -/
def decodeHunt (n : RxId) (b : Byte) : Instr :=
  if b = START then .byteHuntStart n else .byteHuntSkip n b

/-- R115, R116. -/
def decodeCollect (n : RxId) (b : Byte) : Instr :=
  if b = END then .byteCollectEnd n else .byteCollectBody n b

/-- R62, R63, R70, R72: a symbol that begins with `b`; the bytes after it are `rest`. -/
def decodeSymbol (n : RxId) (b : Byte) (rest : List Byte) : Except DecodeError (Instr × List Byte) :=
  if b = ESCAPE then
    match rest with
    | [] => .error .halfPair
    | c :: more => if c = END then .ok (.pairIllegal n, more) else .ok (.pair n c, more)
  else .ok (.unescLiteral n b, rest)

/-- The decoder: one instruction off the front of a byte sequence met in a context, with the bytes left over, or the
reason there is none. Total on any bytes. -/
def decode (k : Ctx) (n : RxId) : List Byte → Except DecodeError (Instr × List Byte)
  | [] => .error .noByte
  | b :: rest =>
    match k with
    | .packetFirst => if b = START then .ok (.encStart, rest) else .error (.notStart b)
    | .payload => .ok (decodePayload b, rest)
    | .packetLast => if b = END then .ok (.encEnd, rest) else .error (.notEnd b)
    | .lookStart => .ok (decodeLookStart n b, rest)
    | .lookEnd => .ok (decodeLookEnd n b, rest)
    | .clear => .ok (decodeClear n b, rest)
    | .escaped => .ok (.unescComplement n b, rest)
    | .symbol => decodeSymbol n b rest
    | .hunt => .ok (decodeHunt n b, rest)
    | .collect => .ok (decodeCollect n b, rest)

/-- The wire word of an instruction and the context it is met in; none for the operations and the named steps of FEED,
which the spec gives no bit pattern (R68, 92 D2). -/
def encode : Instr → Option (Ctx × List Byte)
  | .encStart => some (.packetFirst, [START])
  | .encPlain d => some (.payload, [d])
  | .encStuffStart => some (.payload, [START])
  | .encStuffEnd => some (.payload, [END])
  | .encStuffEscape => some (.payload, [ESCAPE])
  | .encEnd => some (.packetLast, [END])
  | .scanStart _ => some (.lookStart, [START])
  | .scanSkip _ b => some (.lookStart, [b])
  | .scanEnd _ => some (.lookEnd, [END])
  | .scanBody _ b => some (.lookEnd, [b])
  | .unescEscape _ => some (.clear, [ESCAPE])
  | .unescLiteral _ b => some (.clear, [b])
  | .unescComplement _ c => some (.escaped, [c])
  | .pair _ c => some (.symbol, [ESCAPE, c])
  | .pairIllegal _ => some (.symbol, [ESCAPE, END])
  | .byteHuntSkip _ b => some (.hunt, [b])
  | .byteHuntStart _ => some (.hunt, [START])
  | .byteCollectBody _ b => some (.collect, [b])
  | .byteCollectEnd _ => some (.collect, [END])
  | .encode _ | .feed _ _ | .reset _ | .decode _ _ | .rxAppend _ _ | .rxScanStart _ | .rxScanEnd _ | .rxExtract _
  | .rxUnescape _ | .rxEmitErr _ | .rxEmitOk _ | .rxReturn _ => none

/-- A row's columns in spec/opcode_table.json: width in bits, match, mask, and the words its "except" list leaves to
more specific rows. A word of a two-byte row has its first byte in bits 15..8, as the table numbers them. -/
structure TableRow where
  width : Nat
  matchBits : Nat
  mask : Nat
  except : List Nat
  deriving DecidableEq, Repr

/-- The encoding columns of each row, copied from the table; none where the row says "encoding": "none". -/
def tableRow : Instr → Option TableRow
  | .encStart => some ⟨8, 0x01, 0xFF, []⟩
  | .encPlain _ => some ⟨8, 0x00, 0x00, [0x01, 0x1A, 0x1B]⟩
  | .encStuffStart => some ⟨8, 0x01, 0xFF, []⟩
  | .encStuffEnd => some ⟨8, 0x1A, 0xFF, []⟩
  | .encStuffEscape => some ⟨8, 0x1B, 0xFF, []⟩
  | .encEnd => some ⟨8, 0x1A, 0xFF, []⟩
  | .scanStart _ => some ⟨8, 0x01, 0xFF, []⟩
  | .scanSkip _ _ => some ⟨8, 0x00, 0x00, [0x01]⟩
  | .scanEnd _ => some ⟨8, 0x1A, 0xFF, []⟩
  | .scanBody _ _ => some ⟨8, 0x00, 0x00, [0x1A]⟩
  | .unescEscape _ => some ⟨8, 0x1B, 0xFF, []⟩
  | .unescLiteral _ _ => some ⟨8, 0x00, 0x00, [0x1B]⟩
  | .unescComplement _ _ => some ⟨8, 0x00, 0x00, []⟩
  | .pair _ _ => some ⟨16, 0x1B00, 0xFF00, [0x1B1A]⟩
  | .pairIllegal _ => some ⟨16, 0x1B1A, 0xFFFF, []⟩
  | .byteHuntSkip _ _ => some ⟨8, 0x00, 0x00, [0x01]⟩
  | .byteHuntStart _ => some ⟨8, 0x01, 0xFF, []⟩
  | .byteCollectBody _ _ => some ⟨8, 0x00, 0x00, [0x1A]⟩
  | .byteCollectEnd _ => some ⟨8, 0x1A, 0xFF, []⟩
  | .encode _ | .feed _ _ | .reset _ | .decode _ _ | .rxAppend _ _ | .rxScanStart _ | .rxScanEnd _ | .rxExtract _
  | .rxUnescape _ | .rxEmitErr _ | .rxEmitOk _ | .rxReturn _ => none

/-- A byte sequence as one number, the first byte in the highest bits (R63's presentation of a pair). -/
def wordOfBytes (bs : List Byte) : Nat :=
  bs.foldl (fun w b => w * 256 + b.toNat) 0

/-- Does the row of the opcode table match the word? -/
def TableRow.accepts (r : TableRow) (w : Nat) : Bool :=
  w < 2 ^ r.width && w &&& r.mask == r.matchBits && !r.except.contains w

/-- The bytes of a table word in wire order. The table puts the first byte of a pair row in bits 15..8. -/
def bytesOfWord (nbits w : Nat) : List Byte :=
  if nbits = 8 then [BitVec.ofNat 8 w]
  else if nbits = 16 then [BitVec.ofNat 8 (w / 256), BitVec.ofNat 8 w]
  else []

/-- The context in which a word of the table is read when nothing but its width is known: a byte alone has a meaning of
its own only as a payload byte offered to the Encoder (R66, "without context"); two bytes are a symbol of an interior
(R63, R70). DESIGN CHOICE (log 13). -/
def wordCtx (nbits : Nat) : Ctx :=
  if nbits = 16 then .symbol else .payload

/-- The host's question: which instruction the decoder reads from a word of the opcode table (log 13). -/
def decodeTableWord (nbits w : Nat) : Option Instr :=
  match decode (wordCtx nbits) 0 (bytesOfWord nbits w) with
  | .ok (i, _) => some i
  | .error _ => none

end Sys2Proof
end

