-- ==== Sys2Proof/Machine/State.lean ====
section
/-!
DEFINITION. The state of the whole block as plain data, the reasons a step can stop, and the state after reset
(spec/10_state.md, spec/00_scope.md R6, R12). INVENTORY.md lists every field with the rule that names it.
-/

namespace Sys2Proof.Machine

/-- The one error of the block (R130). It records nothing (92 D6). -/
inductive RxError where
  /-- A frame's interior ended with `esc_pending` set. -/
  | malformedFrame
  deriving DecidableEq, Repr

/-- R12: what one extracted frame gives. -/
inductive DecodeResult where
  /-- The fully unescaped payload. -/
  | ok (payload : List Byte)
  /-- An error result for this frame; it carries no payload. -/
  | err (e : RxError)
  deriving DecidableEq, Repr

/-- Where one pass of the FEED loop stands, with the transient values of R24 to R26 that exist there. It exists only
while a FEED is taken step by step (log 6); `pos` and `rest` say where the block stands in the sense of R67 (log 18). -/
inductive Pass where
  /-- Context A: looking for START at index `pos`. -/
  | scanStart (pos : Nat)
  /-- Context B: `start_index` is found; looking for END at index `pos`. -/
  | scanEnd (startIndex pos : Nat)
  /-- Both indices are found; the frame is not extracted yet. -/
  | found (startIndex endIndex : Nat)
  /-- Contexts C and D: `frame` is extracted; `rest` is the part of its interior not yet looked at. -/
  | unescape (frame rest : List Byte) (escPending : Bool) (out : List Byte)
  /-- The loop was left at step 2a or 2b; step 3 is next. -/
  | stopped
  deriving DecidableEq, Repr

/-- The transient values of one FEED: `results` (R26) and the pass of its loop. -/
structure Feed where
  results : List DecodeResult
  pass : Pass
  deriving DecidableEq, Repr

/-- One Reassembler (R2, R22, R28). -/
structure Reassembler where
  /-- `FAULT`: set by BufferOverflow, cleared only by RESET. -/
  fault : Bool
  /-- `RXBUF`, index 0 the oldest byte not yet consumed. -/
  rxbuf : List Byte
  /-- The FEED in progress when one is being taken step by step; none between operations (log 6). -/
  feed : Option Feed
  deriving DecidableEq, Repr

/-- A Reassembler just constructed (R33, R160). -/
def Reassembler.fresh : Reassembler := { fault := false, rxbuf := [], feed := none }

/-- The outcome of one FEED (or BYTE) as the host receives it. -/
inductive Reply where
  /-- The result sequence, in order, possibly empty (R100). -/
  | results (rs : List DecodeResult)
  /-- The fault BufferOverflow in place of a result sequence (R134, R138). -/
  | bufferOverflow
  deriving DecidableEq, Repr

/-- One outcome on channel RX_OUT, with the Reassembler it came from (R6, R176). -/
structure Delivery where
  rx : RxId
  reply : Reply
  deriving DecidableEq, Repr

/-- What the host asks of the block: one entry is one step (log 1). -/
inductive Request where
  /-- An operation or a step asked for by name: the spec gives these no bit pattern (92 D2). -/
  | call (i : Instr)
  /-- Event SOP of R110. -/
  | sop
  /-- Event DATA(d) of R110. -/
  | payloadByte (d : Byte)
  /-- Event EOP of R110. -/
  | eop
  /-- One received byte for the byte-serial view (R112 to R116). -/
  | rxByte (n : RxId) (b : Byte)
  /-- Let the FEED in progress on `n` look at its next byte (R67 contexts A to D). -/
  | nextByte (n : RxId)
  /-- Let the FEED in progress on `n` look at the next whole symbol of the interior (R62, R72). -/
  | nextSymbol (n : RxId)
  deriving DecidableEq, Repr

/-- Why the machine stops with a fault. BufferOverflow is none of these: it is an outcome after which the block goes on
(log 3). -/
inductive Fault where
  /-- The byte at index `i` of RXBUF of Reassembler `n` was asked for and does not exist (R44): raised by `SCAN.START`,
  `SCAN.SKIP`, `SCAN.END`, `SCAN.BODY` and by fetching a byte for them, when the scan stands past the end. Safe: the
  spec has no such read. -/
  | noSuchAddress (n : RxId) (i : Nat)
  deriving DecidableEq, Repr

/-- Why a step is refused. Each is safe: the spec gives the refused combination no meaning. -/
inductive Refusal where
  /-- Raised by an arm of exec for an instruction that has no meaning yet. Safe. -/
  | notModelled (mnemonic : String)
  /-- Raised by the meanings of byte-class rows and by `step`: the operand belongs to a more specific row of the same
  context (R66, R67). Safe. -/
  | illFormed
  /-- Raised by `ENC.START` while a payload is open (R110). Safe. -/
  | payloadAlreadyOpen
  /-- Raised by the other `ENC` rows while no payload is open (R110). Safe. -/
  | payloadNotOpen
  /-- Raised by `FEED`, `RX.APPEND` and the `BYTE` rows while a FEED is in progress on the same Reassembler
  (93 U1: refuse). Safe. -/
  | overlappingFeed
  /-- Raised by the steps of FEED after the first while no FEED is in progress. Safe. -/
  | noFeedInProgress
  /-- Raised by a step of FEED whose place in the loop has not come (R27, R90). Safe. -/
  | stepOutOfOrder
  /-- Raised by `SCAN`, `UNESC` and `PAIR` rows whose byte is not the one the block looks at. Safe. -/
  | byteMismatch
  /-- Raised by the `BYTE` rows of the other phase (R113 to R116). Safe. -/
  | wrongPhase
  /-- Raised by `step` when the bytes fetched do not decode. Safe. -/
  | undecodable (e : DecodeError)
  deriving DecidableEq, Repr

/-- The block. -/
structure State where
  /-- BUF_CAP; no instruction writes it (log 2). -/
  cfg : Config
  /-- The Reassemblers by number; one that is not listed is just constructed. The last listed is never just
  constructed, so equal banks are equal lists (log 7). -/
  rxs : List Reassembler
  /-- "A payload is open", the one bit of the Encoder's event view (R110). -/
  payloadOpen : Bool
  /-- The host's requests not yet taken, oldest first (R6, R50; log 1). -/
  pending : List Request
  /-- Channel ENC_OUT: what was handed over so far, oldest first, one entry per operation or event (log 12). -/
  encOut : List (List Byte)
  /-- Channel RX_OUT: the outcomes handed over so far, oldest first (log 12). -/
  rxOut : List Delivery
  /-- How many free values were drawn (log 4). -/
  draws : Nat
  deriving DecidableEq, Repr

/-- The block right after reset: no Reassembler holds anything (R33, R160), no payload is open (R110); BUF_CAP is
infinite, the reference (92 D3; log 2); nothing is asked for and nothing has been handed over (log 1, log 12). -/
def State.reset : State :=
  { cfg := { bufCap := none }, rxs := [], payloadOpen := false, pending := [], encOut := [], rxOut := [], draws := 0 }

end Sys2Proof.Machine
end

