-- ==== Sys2Proof/Machine/Flags.lean ====
section
/-!
DEFINITION. The block's flag computations: `special` (R81), the escape-pending flag of the unescaper (R25, R96, R105 to
R107) with the verdict it gives (R97, R98), the phase (R112) and the overflow test (R134).
-/

namespace Sys2Proof.Machine

/-- R81: is the byte START, END or ESCAPE? -/
def special (d : Byte) : Bool :=
  d == START || d == END || d == ESCAPE

/-- R105, R106, R107: one interior byte, from `(out, esc_pending)` to `(out, esc_pending)`. -/
def unescStep : List Byte × Bool → Byte → List Byte × Bool
  | (out, true), x => (out ++ [~~~x], false)
  | (out, false), x => if x = ESCAPE then (out, true) else (out ++ [x], false)

/-- R96: the fold over an interior from `([], false)`; also R118's `(out, pend)` of the bytes since START. -/
def unescFold (bytes : List Byte) : List Byte × Bool :=
  bytes.foldl unescStep ([], false)

/-- R97, R98: what the end of an interior gives. -/
def verdict : List Byte × Bool → DecodeResult
  | (_, true) => .err .malformedFrame
  | (out, false) => .ok out

/-- R96 to R98: an interior to its result. -/
def unescape (bytes : List Byte) : DecodeResult :=
  verdict (unescFold bytes)

/-- R134: is a retained buffer longer than BUF_CAP? Never when BUF_CAP is infinite. -/
def overCap (cap : Option Nat) (buf : List Byte) : Bool :=
  match cap with
  | none => false
  | some k => decide (k < buf.length)

end Sys2Proof.Machine
end

