-- ==== Sys2Proof/Machine/Operands.lean ====
section
/-!
DEFINITION. The operand forms: finding an index, slices, the interior of a frame (R10, R95), a payload byte's symbol
and a packet (R61, R62, R80), the byte-serial view of a buffer (R112), and a buffer as memory cells (R40).
-/

namespace Sys2Proof.Machine

/-- R10: the least index `i` of `s` with `from ≤ i` and `s[i] = v`, or none. -/
def find (v : Byte) : List Byte → Nat → Option Nat
  | [], _ => none
  | x :: s, 0 => if x = v then some 0 else (find v s 0).map (· + 1)
  | _ :: s, k + 1 => (find v s k).map (· + 1)

/-- R10: `s[i .. j]`, both ends included; empty when `j = i - 1`. -/
def slice (s : List Byte) (i j : Nat) : List Byte :=
  (s.drop i).take (j + 1 - i)

/-- R46: the buffer without its first `endIndex + 1` bytes. -/
def removeThrough (buf : List Byte) (endIndex : Nat) : List Byte :=
  buf.drop (endIndex + 1)

/-- R95: a frame without its START and its END. -/
def interior (frame : List Byte) : List Byte :=
  slice frame 1 (frame.length - 2)

/-- R62, R66, R80: the symbol of one payload byte. -/
def stuff1 (d : Byte) : List Byte :=
  if special d then [ESCAPE, ~~~d] else [d]

/-- R61, R80: the packet of a payload. -/
def packet (p : List Byte) : List Byte :=
  [START] ++ p.flatMap stuff1 ++ [END]

/-- R112: the two phases of the byte-serial Reassembler. -/
inductive Phase where
  | hunt
  | collect
  deriving DecidableEq, Repr

/-- R112: the phase a buffer shows. -/
def phaseOf (buf : List Byte) : Phase :=
  match find START buf 0 with
  | none => .hunt
  | some _ => .collect

/-- R112: `g`, the bytes before the first START. -/
def orphans (buf : List Byte) : List Byte :=
  match find START buf 0 with
  | none => buf
  | some i => buf.take i

/-- R112: `t`, the bytes after the first START. -/
def openTail (buf : List Byte) : List Byte :=
  match find START buf 0 with
  | none => []
  | some i => buf.drop (i + 1)

/-- R40: a buffer as (address, byte) cells, index 0 first; an address that is not listed does not exist (log 16). -/
def cells (buf : List Byte) : List Host.Cell :=
  buf.zipIdx.map (fun p => (p.2, p.1))

/-- The canonical form of a list of cells: the addresses are 0, 1, 2, ... in order. -/
def Memory.wf (m : List Host.Cell) : Bool :=
  m.map (·.1) == List.range m.length

/-- R44: the byte at an index; none where the address does not exist. -/
def readByte (buf : List Byte) (i : Nat) : Option Byte :=
  buf[i]?

end Sys2Proof.Machine
end

