-- ==== Sys2Proof/Machine/Drain.lean ====
section
/-!
DEFINITION. The FEED loop on a buffer (R90, R92 to R99) and the byte-by-byte FEED of a finite capacity (R134).
-/

namespace Sys2Proof.Machine

/-- R92 to R94, one pass: the frame and the buffer after it, or none when the loop stops at step 2a or 2b. -/
def extract (buf : List Byte) : Option (List Byte × List Byte) :=
  match find START buf 0 with
  | none => none
  | some i =>
    match find END buf (i + 1) with
    | none => none
    | some j => some (slice buf i j, removeThrough buf j)

/-- The loop of R90, at most `k` passes. -/
def drainN : Nat → List Byte → List DecodeResult × List Byte
  | 0, buf => ([], buf)
  | k + 1, buf =>
    match extract buf with
    | none => ([], buf)
    | some (frame, rest) =>
      let (rs, left) := drainN k rest
      (unescape (interior frame) :: rs, left)

/-- The whole loop of R90: every pass that goes on makes the buffer shorter (R99), so its length bounds the passes. -/
def drain (buf : List Byte) : List DecodeResult × List Byte :=
  drainN buf.length buf

/-- R90 with BUF_CAP infinite: append the chunk, then drain. -/
def feedAll (buf c : List Byte) : List DecodeResult × List Byte :=
  drain (buf ++ c)

/-- R134: the chunk byte by byte, the capacity tested after each; none when BufferOverflow strikes. -/
def feedCapped (cap : Nat) : List Byte → List Byte → Option (List DecodeResult × List Byte)
  | buf, [] => some ([], buf)
  | buf, b :: c =>
    let (rs, buf') := feedAll buf [b]
    if overCap (some cap) buf' then none
    else
      match feedCapped cap buf' c with
      | none => none
      | some (rs', left) => some (rs ++ rs', left)

/-- FEED on a buffer for either kind of BUF_CAP; none when BufferOverflow strikes. -/
def feedBuf (cap : Option Nat) (buf c : List Byte) : Option (List DecodeResult × List Byte) :=
  match cap with
  | none => some (feedAll buf c)
  | some k => feedCapped k buf c

end Sys2Proof.Machine
end

