-- ==== Sys2Proof/Machine/Ops.lean ====
section
/-!
DEFINITION. The named operations on the state: the bank of Reassemblers, the channels, the two errors of the block
(R131, R134) with the way back from the fault (R160), and the guards every Reassembler operation goes through.
-/

namespace Sys2Proof.Machine

/-- The Reassembler of number `n`; one not listed is just constructed (log 7). -/
def bankGet : List Reassembler → RxId → Reassembler
  | [], _ => Reassembler.fresh
  | x :: _, 0 => x
  | _ :: t, n + 1 => bankGet t n

/-- Put a Reassembler in front of a bank, keeping the canonical form. -/
def bankCons (x : Reassembler) (t : List Reassembler) : List Reassembler :=
  if x = Reassembler.fresh ∧ t = [] then [] else x :: t

/-- Replace the Reassembler of number `n`. -/
def bankPut : List Reassembler → RxId → Reassembler → List Reassembler
  | [], 0, x => bankCons x []
  | [], n + 1, x => bankCons Reassembler.fresh (bankPut [] n x)
  | _ :: t, 0, x => bankCons x t
  | y :: t, n + 1, x => bankCons y (bankPut t n x)

/-- The canonical form of a bank: the last one listed is not just constructed. -/
def bankWf (l : List Reassembler) : Bool :=
  l.getLast? != some Reassembler.fresh

/-- The Reassembler of number `n`. -/
def State.rx (s : State) (n : RxId) : Reassembler :=
  bankGet s.rxs n

/-- Replace the Reassembler of number `n`. -/
def State.setRx (s : State) (n : RxId) (x : Reassembler) : State :=
  { s with rxs := bankPut s.rxs n x }

/-- Write RXBUF of Reassembler `n`; used only for an append (R45) or a prefix removal (R46) or both. -/
def State.setBuf (s : State) (n : RxId) (buf : List Byte) : State :=
  s.setRx n { s.rx n with rxbuf := buf }

/-- Replace the FEED in progress on Reassembler `n`. -/
def State.setFeed (s : State) (n : RxId) (f : Option Feed) : State :=
  s.setRx n { s.rx n with feed := f }

/-- Hand one outcome over on RX_OUT. -/
def State.deliver (s : State) (n : RxId) (r : Reply) : State :=
  { s with rxOut := s.rxOut ++ [{ rx := n, reply := r }] }

/-- Hand bytes over on ENC_OUT. -/
def State.emit (s : State) (bytes : List Byte) : State :=
  { s with encOut := s.encOut ++ [bytes] }

/-- Set or clear "a payload is open" (R110). -/
def State.setPayloadOpen (s : State) (b : Bool) : State :=
  { s with payloadOpen := b }

/-- R134, taking BufferOverflow: FAULT <- 1, no results are delivered, the outcome is the fault, RXBUF is unspecified
from then on (a free value, log 4) and the transient values of the FEED are gone. -/
def State.takeOverflow (s : State) (n : RxId) : State :=
  let t := s.setRx n { fault := true, rxbuf := Config.freeBuf s.draws, feed := none }
  { t with draws := s.draws + 1 }.deliver n .bufferOverflow

/-- R160, RESET: the only return from BufferOverflow (R141). -/
def State.construct (s : State) (n : RxId) : State :=
  s.setRx n Reassembler.fresh

/-- Steps 2e and 2f: append one result and go to step 2a. -/
def State.emitResult (s : State) (n : RxId) (f : Feed) (r : DecodeResult) : State :=
  s.setFeed n (some { results := f.results ++ [r], pass := .scanStart 0 })

/-- R131, raising MalformedFrame: discard `out`, append the error result, go to step 2a. Nothing is saved. -/
def State.raiseMalformed (s : State) (n : RxId) (f : Feed) : State :=
  s.emitResult n f (.err .malformedFrame)

/-- Move the FEED in progress to another place in its loop. -/
def State.setPass (s : State) (n : RxId) (f : Feed) (p : Pass) : State :=
  s.setFeed n (some { f with pass := p })

/-- The outcome type of a meaning. -/
abbrev Result := Host.Outcome State Fault Refusal

/-- What FEED, RX.APPEND and the BYTE rows share: on a faulted Reassembler the fault is returned again (R135, log 3);
while a FEED is in progress there is no meaning (93 U1); otherwise go on. -/
def whenIdle (n : RxId) (s : State) (go : Result) : Result :=
  if (s.rx n).fault then .next (s.deliver n .bufferOverflow)
  else
    match (s.rx n).feed with
    | some _ => .refused .overlappingFeed
    | none => go

/-- What the later steps of FEED share: there is a FEED in progress. -/
def whenFeeding (n : RxId) (s : State) (go : Feed → Result) : Result :=
  match (s.rx n).feed with
  | none => .refused .noFeedInProgress
  | some f => go f

/-- FEED of a chunk on an idle Reassembler (R90, R134). -/
def feedChunk (n : RxId) (c : List Byte) (s : State) : State :=
  match feedBuf s.cfg.bufCap (s.rx n).rxbuf c with
  | none => s.takeOverflow n
  | some (rs, buf) => (s.setBuf n buf).deliver n (.results rs)

/-- R113 to R115 with R120: hold one more byte, or overflow. A byte that completes no frame gives no result: the result
sequence is empty (log 9). -/
def holdByte (n : RxId) (b : Byte) (s : State) : State :=
  if overCap s.cfg.bufCap ((s.rx n).rxbuf ++ [b]) then s.takeOverflow n
  else (s.setBuf n ((s.rx n).rxbuf ++ [b])).deliver n (.results [])

/-- The byte the scan looks at: a byte that is there goes on, an index outside the buffer is a fault (R44). -/
def lookAt (n : RxId) (pos : Nat) (s : State) (go : Byte → Result) : Result :=
  match readByte (s.rx n).rxbuf pos with
  | none => .fault (.noSuchAddress n pos)
  | some b => go b

end Sys2Proof.Machine
end

