-- ==== Sys2Proof/Machine/ByteSerial.lean ====
section
/-!
DEFINITION. The byte-serial Reassembler, one received byte per step (R112 to R116, R120). Its phase and its byte
sequences are a view of RXBUF (log 10).
-/

namespace Sys2Proof.Machine

/-- A BYTE row of one phase. -/
def whenPhase (n : RxId) (p : Phase) (s : State) (go : Result) : Result :=
  whenIdle n s (if phaseOf (s.rx n).rxbuf = p then go else .refused .wrongPhase)

/-- `BYTE.HUNT_SKIP` (R113): `g <- g ++ [b]`. -/
def execByteHuntSkip (n : RxId) (b : Byte) (s : State) : Result :=
  if b = START then .refused .illFormed else whenPhase n .hunt s (.next (holdByte n b s))

/-- `BYTE.HUNT_START` (R114): phase <- COLLECT, `t <- []`. -/
def execByteHuntStart (n : RxId) (s : State) : Result :=
  whenPhase n .hunt s (.next (holdByte n START s))

/-- `BYTE.COLLECT_BODY` (R115): `t <- t ++ [b]`. -/
def execByteCollectBody (n : RxId) (b : Byte) (s : State) : Result :=
  if b = END then .refused .illFormed else whenPhase n .collect s (.next (holdByte n b s))

/-- `BYTE.COLLECT_END` (R116): the result of `t`; orphan bytes, START, interior and END are consumed together. It never
overflows (R120). -/
def execByteCollectEnd (n : RxId) (s : State) : Result :=
  whenPhase n .collect s
    (.next ((s.setBuf n []).deliver n (.results [unescape (openTail (s.rx n).rxbuf)])))

end Sys2Proof.Machine
end

