-- ==== Sys2Proof/Machine/Encoder.lean ====
section
/-!
DEFINITION. The Encoder: ENCODE (R80) and its byte rows (R82 to R87) in the event view of R110.
-/

namespace Sys2Proof.Machine

/-- `ENCODE` (R80): hand over the packet. No other state is read or written (R30), and it never fails (R89). -/
def execEncode (p : List Byte) (s : State) : Result :=
  .next (s.emit (packet p))

/-- One event inside an open payload (R110). -/
def whenPayloadOpen (s : State) (t : State) : Result :=
  if s.payloadOpen then .next t else .refused .payloadNotOpen

/-- `ENC.START` (R82), event SOP: emit START and open the payload. -/
def execEncStart (s : State) : Result :=
  if s.payloadOpen then .refused .payloadAlreadyOpen else .next ((s.emit [START]).setPayloadOpen true)

/-- `ENC.PLAIN` (R83): one byte out for one byte in, unchanged. -/
def execEncPlain (d : Byte) (s : State) : Result :=
  if special d then .refused .illFormed else whenPayloadOpen s (s.emit [d])

/-- `ENC.STUFF_START` (R84). -/
def execEncStuffStart (s : State) : Result :=
  whenPayloadOpen s (s.emit [ESCAPE, ~~~START])

/-- `ENC.STUFF_END` (R85). -/
def execEncStuffEnd (s : State) : Result :=
  whenPayloadOpen s (s.emit [ESCAPE, ~~~END])

/-- `ENC.STUFF_ESCAPE` (R86). -/
def execEncStuffEscape (s : State) : Result :=
  whenPayloadOpen s (s.emit [ESCAPE, ~~~ESCAPE])

/-- `ENC.END` (R87), event EOP: emit END and close the payload. -/
def execEncEnd (s : State) : Result :=
  whenPayloadOpen s ((s.emit [END]).setPayloadOpen false)

end Sys2Proof.Machine
end

