-- ==== Sys2Proof/Machine/Rx.lean ====
section
/-!
DEFINITION. The Reassembler: FEED as one atomic transition (R90, R134) and each of its named steps (R91 to R100).
-/

namespace Sys2Proof.Machine

/-- `FEED` (R90, R134). -/
def execFeed (n : RxId) (c : List Byte) (s : State) : Result :=
  whenIdle n s (.next (feedChunk n c s))

/-- `RX.APPEND` (R91), step 1: the whole chunk goes to the end of RXBUF and the loop begins with no results. With a
finite BUF_CAP the chunk that would overflow byte by byte (R134) overflows here, before anything is delivered (log 5). -/
def execRxAppend (n : RxId) (c : List Byte) (s : State) : Result :=
  whenIdle n s <|
    match feedBuf s.cfg.bufCap (s.rx n).rxbuf c with
    | none => .next (s.takeOverflow n)
    | some _ =>
      .next ((s.setBuf n ((s.rx n).rxbuf ++ c)).setFeed n (some { results := [], pass := .scanStart 0 }))

/-- `RX.SCAN_START` (R92), step 2a: from index 0, whatever part of it was scanned byte by byte before. -/
def execRxScanStart (n : RxId) (s : State) : Result :=
  whenFeeding n s fun f =>
    match f.pass with
    | .scanStart _ =>
      match find START (s.rx n).rxbuf 0 with
      | none => .next (s.setPass n f .stopped)
      | some i => .next (s.setPass n f (.scanEnd i (i + 1)))
    | _ => .refused .stepOutOfOrder

/-- `RX.SCAN_END` (R93), step 2b. -/
def execRxScanEnd (n : RxId) (s : State) : Result :=
  whenFeeding n s fun f =>
    match f.pass with
    | .scanEnd i _ =>
      match find END (s.rx n).rxbuf (i + 1) with
      | none => .next (s.setPass n f .stopped)
      | some j => .next (s.setPass n f (.found i j))
    | _ => .refused .stepOutOfOrder

/-- `RX.EXTRACT` (R94), step 2c: take the frame out, with everything before it; unescaping starts with `esc_pending`
clear and `out` empty (R25, R26). -/
def execRxExtract (n : RxId) (s : State) : Result :=
  whenFeeding n s fun f =>
    match f.pass with
    | .found i j =>
      let frame := slice (s.rx n).rxbuf i j
      .next ((s.setBuf n (removeThrough (s.rx n).rxbuf j)).setPass n f
        (.unescape frame (interior frame) false []))
    | _ => .refused .stepOutOfOrder

/-- `RX.UNESCAPE` (R96), step 2d: the fold over the whole interior of the frame. -/
def execRxUnescape (n : RxId) (s : State) : Result :=
  whenFeeding n s fun f =>
    match f.pass with
    | .unescape frame _ _ _ =>
      let (out, pend) := unescFold (interior frame)
      .next (s.setPass n f (.unescape frame [] pend out))
    | _ => .refused .stepOutOfOrder

/-- `RX.EMIT_ERR` (R97), step 2e: the interior has ended with `esc_pending` set. -/
def execRxEmitErr (n : RxId) (s : State) : Result :=
  whenFeeding n s fun f =>
    match f.pass with
    | .unescape _ [] true _ => .next (s.raiseMalformed n f)
    | _ => .refused .stepOutOfOrder

/-- `RX.EMIT_OK` (R98), step 2f: the interior has ended with `esc_pending` clear. -/
def execRxEmitOk (n : RxId) (s : State) : Result :=
  whenFeeding n s fun f =>
    match f.pass with
    | .unescape _ [] false out => .next (s.emitResult n f (.ok out))
    | _ => .refused .stepOutOfOrder

/-- `RX.RETURN` (R100), step 3: hand over the results; the FEED is over. -/
def execRxReturn (n : RxId) (s : State) : Result :=
  whenFeeding n s fun f =>
    match f.pass with
    | .stopped => .next ((s.setFeed n none).deliver n (.results f.results))
    | _ => .refused .stepOutOfOrder

end Sys2Proof.Machine
end

