-- ==== Sys2Proof/Machine/Scan.lean ====
section
/-!
DEFINITION. The byte rows of the two scans, contexts A and B of R67 (R92, R93): the scan taken one byte at a time.
-/

namespace Sys2Proof.Machine

/-- `SCAN.START`: the byte looked at is START; the search for END begins behind it. -/
def execScanStart (n : RxId) (s : State) : Result :=
  whenFeeding n s fun f =>
    match f.pass with
    | .scanStart pos =>
      lookAt n pos s fun x =>
        if x = START then .next (s.setPass n f (.scanEnd pos (pos + 1))) else .refused .byteMismatch
    | _ => .refused .stepOutOfOrder

/-- `SCAN.SKIP`: any other byte is passed over; it stays in the buffer. -/
def execScanSkip (n : RxId) (b : Byte) (s : State) : Result :=
  if b = START then .refused .illFormed
  else
    whenFeeding n s fun f =>
      match f.pass with
      | .scanStart pos =>
        lookAt n pos s fun x =>
          if x = b then .next (s.setPass n f (.scanStart (pos + 1))) else .refused .byteMismatch
      | _ => .refused .stepOutOfOrder

/-- `SCAN.END`: the byte looked at is END; the frame ends here. -/
def execScanEnd (n : RxId) (s : State) : Result :=
  whenFeeding n s fun f =>
    match f.pass with
    | .scanEnd i pos =>
      lookAt n pos s fun x =>
        if x = END then .next (s.setPass n f (.found i pos)) else .refused .byteMismatch
    | _ => .refused .stepOutOfOrder

/-- `SCAN.BODY`: any other byte, START and ESCAPE among them, is part of the interior. -/
def execScanBody (n : RxId) (b : Byte) (s : State) : Result :=
  if b = END then .refused .illFormed
  else
    whenFeeding n s fun f =>
      match f.pass with
      | .scanEnd i pos =>
        lookAt n pos s fun x =>
          if x = b then .next (s.setPass n f (.scanEnd i (pos + 1))) else .refused .byteMismatch
      | _ => .refused .stepOutOfOrder

end Sys2Proof.Machine
end

