-- ==== Sys2Proof/Machine/System.lean ====
section
/-!
DEFINITION. RESET (R160, R161) and the pseudo-operation decode (R74).
-/

namespace Sys2Proof.Machine

/-- `RESET` (R160): RXBUF <- [], FAULT <- 0; what was held is dropped without a report (R161, log 17). -/
def execReset (n : RxId) (s : State) : Result :=
  .next (s.construct n)

/-- `decode` (R74): construct the Reassembler, then FEED the bytes to it (log 8). A Reassembler just constructed is
idle and not faulted, so nothing stands in the way of the FEED. -/
def execDecode (n : RxId) (x : List Byte) (s : State) : Result :=
  .next (feedChunk n x (s.construct n))

end Sys2Proof.Machine
end

