-- ==== Sys2Proof/Machine/Unescape.lean ====
section
/-!
DEFINITION. The byte rows of the unescaper, contexts C and D of R67 (R105 to R107), and the two pair rows (R63, R70),
which take a whole two-byte symbol at once.
-/

namespace Sys2Proof.Machine

/-- `UNESC.ESCAPE` (R105): set `esc_pending`, emit nothing. -/
def execUnescEscape (n : RxId) (s : State) : Result :=
  whenFeeding n s fun f =>
    match f.pass with
    | .unescape frame (x :: rest) false out =>
      if x = ESCAPE then .next (s.setPass n f (.unescape frame rest true out)) else .refused .byteMismatch
    | _ => .refused .stepOutOfOrder

/-- `UNESC.LITERAL` (R106): emit the byte unchanged. -/
def execUnescLiteral (n : RxId) (b : Byte) (s : State) : Result :=
  if b = ESCAPE then .refused .illFormed
  else
    whenFeeding n s fun f =>
      match f.pass with
      | .unescape frame (x :: rest) false out =>
        if x = b then .next (s.setPass n f (.unescape frame rest false (out ++ [b]))) else .refused .byteMismatch
      | _ => .refused .stepOutOfOrder

/-- `UNESC.COMPLEMENT` (R107): emit the complement of the byte, whatever it is, and clear `esc_pending`. -/
def execUnescComplement (n : RxId) (c : Byte) (s : State) : Result :=
  whenFeeding n s fun f =>
    match f.pass with
    | .unescape frame (x :: rest) true out =>
      if x = c then .next (s.setPass n f (.unescape frame rest false (out ++ [~~~c]))) else .refused .byteMismatch
    | _ => .refused .stepOutOfOrder

/-- `PAIR` (R63, R65, R69): the two bytes ESCAPE, `c` stand for the one payload byte `~c`, canonical or not. -/
def execPair (n : RxId) (c : Byte) (s : State) : Result :=
  if c = END then .refused .illFormed
  else
    whenFeeding n s fun f =>
      match f.pass with
      | .unescape frame (e :: x :: rest) false out =>
        if e = ESCAPE ∧ x = c then .next (s.setPass n f (.unescape frame rest false (out ++ [~~~c])))
        else .refused .byteMismatch
      | _ => .refused .stepOutOfOrder

/-- `PAIR.ILLEGAL` (R70): an ESCAPE met with `esc_pending` clear is the last byte before the frame's END; the whole
frame yields the error result. -/
def execPairIllegal (n : RxId) (s : State) : Result :=
  whenFeeding n s fun f =>
    match f.pass with
    | .unescape _ [e] false _ => if e = ESCAPE then .next (s.raiseMalformed n f) else .refused .byteMismatch
    | _ => .refused .stepOutOfOrder

end Sys2Proof.Machine
end

