-- ==== Sys2Proof/Machine/Dispatch.lean ====
section
/-!
DEFINITION. The dispatch: one arm per row of the opcode table.
-/

namespace Sys2Proof.Machine

def exec (i : Instr) (s : State) : Host.Outcome State Fault Refusal :=
  match i with
  | .encode p => Sys2Proof.Machine.execEncode p s
  | .feed n c => Sys2Proof.Machine.execFeed n c s
  | .reset n => Sys2Proof.Machine.execReset n s
  | .decode n x => Sys2Proof.Machine.execDecode n x s
  | .encStart => Sys2Proof.Machine.execEncStart s
  | .encPlain d => Sys2Proof.Machine.execEncPlain d s
  | .encStuffStart => Sys2Proof.Machine.execEncStuffStart s
  | .encStuffEnd => Sys2Proof.Machine.execEncStuffEnd s
  | .encStuffEscape => Sys2Proof.Machine.execEncStuffEscape s
  | .encEnd => Sys2Proof.Machine.execEncEnd s
  | .rxAppend n c => Sys2Proof.Machine.execRxAppend n c s
  | .rxScanStart n => Sys2Proof.Machine.execRxScanStart n s
  | .rxScanEnd n => Sys2Proof.Machine.execRxScanEnd n s
  | .rxExtract n => Sys2Proof.Machine.execRxExtract n s
  | .rxUnescape n => Sys2Proof.Machine.execRxUnescape n s
  | .rxEmitErr n => Sys2Proof.Machine.execRxEmitErr n s
  | .rxEmitOk n => Sys2Proof.Machine.execRxEmitOk n s
  | .rxReturn n => Sys2Proof.Machine.execRxReturn n s
  | .scanStart n => Sys2Proof.Machine.execScanStart n s
  | .scanSkip n b => Sys2Proof.Machine.execScanSkip n b s
  | .scanEnd n => Sys2Proof.Machine.execScanEnd n s
  | .scanBody n b => Sys2Proof.Machine.execScanBody n b s
  | .unescEscape n => Sys2Proof.Machine.execUnescEscape n s
  | .unescLiteral n b => Sys2Proof.Machine.execUnescLiteral n b s
  | .unescComplement n c => Sys2Proof.Machine.execUnescComplement n c s
  | .pair n c => Sys2Proof.Machine.execPair n c s
  | .pairIllegal n => Sys2Proof.Machine.execPairIllegal n s
  | .byteHuntSkip n b => Sys2Proof.Machine.execByteHuntSkip n b s
  | .byteHuntStart n => Sys2Proof.Machine.execByteHuntStart n s
  | .byteCollectBody n b => Sys2Proof.Machine.execByteCollectBody n b s
  | .byteCollectEnd n => Sys2Proof.Machine.execByteCollectEnd n s

end Sys2Proof.Machine
end

