-- ==== Sys2Proof/Machine/Fetch.lean ====
section
/-!
DEFINITION. From a host request to an instruction: which bytes it stands for and in which context they are decoded
(R66, R67, R110, R113 to R116), and how a word of the opcode table is placed so that the next step meets it.
-/

namespace Sys2Proof.Machine

/-- The bytes a request makes the block meet, with their context, or why there are none. -/
abbrev Fetched := Ctx × RxId × List Byte

/-- R67: the byte the FEED in progress on `n` looks at. -/
def fetchByte (n : RxId) (s : State) (go : Fetched → Result) : Result :=
  whenFeeding n s fun f =>
    match f.pass with
    | .scanStart pos => lookAt n pos s fun b => go (.lookStart, n, [b])
    | .scanEnd _ pos => lookAt n pos s fun b => go (.lookEnd, n, [b])
    | .unescape _ (x :: _) false _ => go (.clear, n, [x])
    | .unescape _ (x :: _) true _ => go (.escaped, n, [x])
    | .unescape _ [] _ _ | .found _ _ | .stopped => .refused .stepOutOfOrder

/-- R62, R72: the symbol the unescaper stands before. The frame's END follows the interior. -/
def fetchSymbol (n : RxId) (s : State) (go : Fetched → Result) : Result :=
  whenFeeding n s fun f =>
    match f.pass with
    | .unescape _ (x :: rest) false _ => go (.symbol, n, x :: rest ++ [END])
    | _ => .refused .stepOutOfOrder

/-- R113 to R116: the context of a received byte. -/
def phaseCtx (buf : List Byte) : Ctx :=
  match phaseOf buf with
  | .hunt => .hunt
  | .collect => .collect

/-- Decode fetched bytes and hand the instruction on; an ill-formed one is refused. -/
def runFetched (go : Instr → Result) (x : Fetched) : Result :=
  match decode x.1 x.2.1 x.2.2 with
  | .error e => .refused (.undecodable e)
  | .ok (i, _) => if WellFormed i then go i else .refused .illFormed

/-- One host request, once it is taken from the queue. -/
def serve (run : Instr → State → Result) (r : Request) (s : State) : Result :=
  match r with
  | .call i => if WellFormed i then run i s else .refused .illFormed
  | .sop => runFetched (run · s) (.packetFirst, 0, [START])
  | .payloadByte d => runFetched (run · s) (.payload, 0, [d])
  | .eop => runFetched (run · s) (.packetLast, 0, [END])
  | .rxByte n b => runFetched (run · s) (phaseCtx (s.rx n).rxbuf, n, [b])
  | .nextByte n => fetchByte n s (runFetched (run · s))
  | .nextSymbol n => fetchSymbol n s (runFetched (run · s))

/-- Put a request in front of the queue. -/
def State.ask (s : State) (r : Request) : State :=
  { s with pending := r :: s.pending }

/-- Place a word of the opcode table so that the next step meets it (log 13). One byte is offered to the Encoder inside
an open payload. Two bytes become the interior of the frame that a FEED in progress on Reassembler 0 has just extracted;
where the second is END, it is that frame's END. DESIGN CHOICE (log 13): the spec has no such placing. It is no
instruction and no step: it makes the state the row needs, so it opens the payload for a byte, and for two bytes it
clears FAULT of Reassembler 0 (which in a run only RESET, or decode, does, R28) and overwrites any FEED in progress
there; RXBUF stays. -/
def placeWord (s : State) (nbits w : Nat) : State :=
  match bytesOfWord nbits w with
  | [d] => (s.setPayloadOpen true).ask (.payloadByte d)
  | [a, b] =>
    let inner := if b = END then [a] else [a, b]
    let frame := [START] ++ inner ++ [END]
    (s.setRx 0 { fault := false, rxbuf := (s.rx 0).rxbuf,
                 feed := some { results := [], pass := .unescape frame inner false [] } }).ask (.nextSymbol 0)
  | _ => s

end Sys2Proof.Machine
end

