-- ==== Sys2Proof/Safety.lean ====
section
/-!
DEFINITION. The terms statements are made in: what a buffer gives, written as relations without any index or loop
(R72, R75, R92 to R99); the invariant of the state (R22, R28, R32, R40); what an instruction leaves alone; and runs.
-/

namespace Sys2Proof.Machine

/-- R62, R69, R72: a byte sequence splits into symbols, and the payload the symbols stand for. A literal is any byte but
ESCAPE; a pair is ESCAPE and any byte. -/
inductive Symbols : List Byte → List Byte → Prop where
  | nil : Symbols [] []
  | literal {d : Byte} {u p : List Byte} : d ≠ ESCAPE → Symbols u p → Symbols (d :: u) (d :: p)
  | pair {c : Byte} {u p : List Byte} : Symbols u p → Symbols (ESCAPE :: c :: u) ((~~~c) :: p)

/-- R75: the symbols an Encoder produces: a byte that is not special, or one of the three canonical pairs. -/
inductive CanonicalSymbols : List Byte → List Byte → Prop where
  | nil : CanonicalSymbols [] []
  | data {d : Byte} {u p : List Byte} : d ≠ START → d ≠ END → d ≠ ESCAPE → CanonicalSymbols u p →
      CanonicalSymbols (d :: u) (d :: p)
  | pair {c : Byte} {u p : List Byte} : (c = 0xFE ∨ c = 0xE5 ∨ c = 0xE4) → CanonicalSymbols u p →
      CanonicalSymbols (ESCAPE :: c :: u) ((~~~c) :: p)

/-- R97, R98, R130: what a frame with interior `u` gives. -/
def FrameResult (u : List Byte) (r : DecodeResult) : Prop :=
  (∃ p, Symbols u p ∧ r = .ok p) ∨ (∃ v p, Symbols v p ∧ u = v ++ [ESCAPE] ∧ r = .err .malformedFrame)

/-- R92 to R99: the loop of FEED as a relation from a buffer to the results and the buffer left. -/
inductive Drains : List Byte → List DecodeResult → List Byte → Prop where
  /-- Step 2a finds no START. -/
  | noStart {buf : List Byte} : START ∉ buf → Drains buf [] buf
  /-- Step 2b finds no END after the first START. -/
  | noEnd {g t : List Byte} : START ∉ g → END ∉ t → Drains (g ++ START :: t) [] (g ++ START :: t)
  /-- A frame with interior `u`, orphan bytes `g` before it, and the loop going on with `more`. -/
  | frame {g u more left : List Byte} {r : DecodeResult} {rs : List DecodeResult} : START ∉ g → END ∉ u →
      FrameResult u r → Drains more rs left → Drains (g ++ START :: u ++ END :: more) (r :: rs) left

/-- R32: the two shapes of RXBUF between operations, HUNT and COLLECT. -/
def Settled (buf : List Byte) : Prop :=
  START ∉ buf ∨ ∃ g t, buf = g ++ START :: t ∧ START ∉ g ∧ END ∉ t

/-- R31: two buffers that differ only in their orphan bytes. -/
def SameButOrphans (b₁ b₂ : List Byte) : Prop :=
  (START ∉ b₁ ∧ START ∉ b₂) ∨
    ∃ g₁ g₂ t, b₁ = g₁ ++ START :: t ∧ b₂ = g₂ ++ START :: t ∧ START ∉ g₁ ∧ START ∉ g₂

/-- Reassembler `n` is between operations and not faulted. -/
def Ready (n : RxId) (s : State) : Prop :=
  (s.rx n).fault = false ∧ (s.rx n).feed = none

/-- A FEED is in progress on Reassembler `n`, with these results so far, at this place of its loop. -/
def Feeding (n : RxId) (s : State) (results : List DecodeResult) (pass : Pass) : Prop :=
  (s.rx n).feed = some { results := results, pass := pass }

/-- A Reassembler with its FEED in progress at this place of its loop, all else as in `x`. -/
def inPass (x : Reassembler) (results : List DecodeResult) (pass : Pass) : Reassembler :=
  { x with feed := some { results := results, pass := pass } }

/-- What holds of a Reassembler at each place of a FEED taken step by step. -/
def passInv (buf : List Byte) : Option Feed → Prop
  | none => Settled buf
  | some f =>
    match f.pass with
    | .scanStart pos => pos ≤ buf.length ∧ START ∉ buf.take pos
    | .scanEnd i pos =>
      find START buf 0 = some i ∧ i < pos ∧ pos ≤ buf.length ∧ END ∉ (buf.take pos).drop (i + 1)
    | .found i j => find START buf 0 = some i ∧ find END buf (i + 1) = some j
    | .unescape frame rest pend out =>
      ∃ seen, frame = START :: (seen ++ rest) ++ [END] ∧ END ∉ seen ++ rest ∧ unescFold seen = (out, pend)
    | .stopped => Settled buf

/-- The invariant of one Reassembler. A fault needs a finite BUF_CAP (R28) and ends the FEED in progress; without a
fault the buffer has a shape of R32 and, once drained, fits BUF_CAP (R22). -/
def rxInv (cap : Option Nat) (x : Reassembler) : Prop :=
  (x.fault = true → x.feed = none ∧ cap ≠ none) ∧
    (x.fault = false → passInv x.rxbuf x.feed ∧ ∀ k, cap = some k → (drain x.rxbuf).2.length ≤ k)

/-- The invariant of the block: the bank is in canonical form and every Reassembler meets its invariant. -/
def BlockInv (s : State) : Prop :=
  bankWf s.rxs = true ∧ ∀ n, rxInv s.cfg.bufCap (s.rx n)

/-- From `s` to `t` nothing differs but Reassembler `n` and that `out` was handed over on RX_OUT. -/
def RxFrame (n : RxId) (s t : State) (out : List Reply) : Prop :=
  t.cfg = s.cfg ∧ t.payloadOpen = s.payloadOpen ∧ t.pending = s.pending ∧ t.encOut = s.encOut ∧ t.draws = s.draws ∧
    t.rxOut = s.rxOut ++ out.map (fun r => { rx := n, reply := r }) ∧ ∀ m, m ≠ n → t.rx m = s.rx m

/-- R134: BufferOverflow was taken on Reassembler `n`. Nothing is said of what RXBUF holds. -/
def Overflowed (n : RxId) (s t : State) : Prop :=
  (t.rx n).fault = true ∧ (t.rx n).feed = none ∧
    t.cfg = s.cfg ∧ t.payloadOpen = s.payloadOpen ∧ t.pending = s.pending ∧ t.encOut = s.encOut ∧
    t.rxOut = s.rxOut ++ [{ rx := n, reply := .bufferOverflow }] ∧ ∀ m, m ≠ n → t.rx m = s.rx m

/-- ENCODE of `p` hands over `q` and does nothing else, in every state. -/
def Encodes (p q : List Byte) : Prop :=
  ∀ s : State, exec (.encode p) s = .next { s with encOut := s.encOut ++ [q] }

/-- FEED of `c` to Reassembler `n` answers a next state in which `rs` was delivered and RXBUF is `left`, and nothing else
differs. -/
def Feeds (n : RxId) (c : List Byte) (s : State) (rs : List DecodeResult) (left : List Byte) : Prop :=
  ∃ t, exec (.feed n c) s = .next t ∧ t.rx n = { fault := false, rxbuf := left, feed := none } ∧
    RxFrame n s t [.results rs]

/-- The results a delivery carries. -/
def Delivery.resultList (d : Delivery) : List DecodeResult :=
  match d.reply with
  | .results rs => rs
  | .bufferOverflow => []

/-- The bytes an instruction brings to the buffer of its Reassembler. -/
def incoming : Instr → List Byte
  | .feed _ c | .rxAppend _ c | .decode _ c => c
  | .byteHuntSkip _ b | .byteCollectBody _ b => [b]
  | .byteHuntStart _ => [START]
  | .byteCollectEnd _ => [END]
  | .encode _ | .reset _ | .encStart | .encPlain _ | .encStuffStart | .encStuffEnd | .encStuffEscape | .encEnd
  | .rxScanStart _ | .rxScanEnd _ | .rxExtract _ | .rxUnescape _ | .rxEmitErr _ | .rxEmitOk _ | .rxReturn _
  | .scanStart _ | .scanSkip _ _ | .scanEnd _ | .scanBody _ _ | .unescEscape _ | .unescLiteral _ _
  | .unescComplement _ _ | .pair _ _ | .pairIllegal _ => []

/-- Does the instruction construct Reassembler `n` anew (R160, R74)? -/
def constructs (i : Instr) (n : RxId) : Prop :=
  i = .reset n ∨ ∃ x, i = .decode n x

/-- The named steps of a FEED on Reassembler `n` after its first. -/
def laterSteps (n : RxId) : List Instr :=
  [.rxScanStart n, .rxScanEnd n, .rxExtract n, .rxUnescape n, .rxEmitErr n, .rxEmitOk n, .rxReturn n]

/-- Instructions one after the other, stopping at the first fault or refusal. -/
def runInstrs : List Instr → State → Result
  | [], s => .next s
  | i :: is, s =>
    match exec i s with
    | .next t => runInstrs is t
    | .fault r => .fault r
    | .refused r => .refused r

/-- `k` steps of the machine, stopping at the first fault or refusal. -/
def runSteps : Nat → State → Result
  | 0, s => .next s
  | k + 1, s =>
    match step s with
    | .next t => runSteps k t
    | .fault r => .fault r
    | .refused r => .refused r

end Sys2Proof.Machine
end

