-- ==== Sys2Proof/Certificates/Slice0/Obligations.lean ====
section
/-!
DEFINITION. The statements for the provers. Each docstring names the rule of spec/ it formalises, or the log entry where it
rests on a choice of the model.
-/

open Sys2Proof Sys2Proof.Machine

/-! ### Encoding -/

/-- Every wire word decodes, in its context and with anything after it, to the well-formed instruction it encodes
(30_encoding sections 1 to 3). -/
def Obligations.DecodeOfEncode : Prop :=
  ∀ (i : Instr) (k : Ctx) (w rest : List Byte) (n : RxId),
    WellFormed i = true → encode i = some (k, w) → (i.target = none ∨ i.target = some n) →
      decode k n (w ++ rest) = .ok (i, rest)

/-- What the decoder answers is well formed and takes exactly its own wire word off the front. A literal met symbol by
symbol is the same instruction as one met byte by byte. -/
def Obligations.EncodeOfDecode : Prop :=
  ∀ (k : Ctx) (n : RxId) (bs rest : List Byte) (i : Instr),
    decode k n bs = .ok (i, rest) →
      WellFormed i = true ∧ (i.target = none ∨ i.target = some n) ∧
        ∃ w, bs = w ++ rest ∧ (encode i = some (k, w) ∨ (k = .symbol ∧ encode i = some (.clear, w)))

/-- R66, R67, R113 to R116 as one table: what each byte value means in each context. -/
def Obligations.ByteMeaningByContext : Prop :=
  ∀ (n : RxId) (b : Byte) (rest : List Byte),
    decode .payload n (b :: rest) =
        .ok (if b = 0x01 then .encStuffStart else if b = 0x1A then .encStuffEnd
             else if b = 0x1B then .encStuffEscape else .encPlain b, rest) ∧
      decode .lookStart n (b :: rest) = .ok (if b = 0x01 then .scanStart n else .scanSkip n b, rest) ∧
      decode .lookEnd n (b :: rest) = .ok (if b = 0x1A then .scanEnd n else .scanBody n b, rest) ∧
      decode .clear n (b :: rest) = .ok (if b = 0x1B then .unescEscape n else .unescLiteral n b, rest) ∧
      decode .escaped n (b :: rest) = .ok (.unescComplement n b, rest) ∧
      decode .hunt n (b :: rest) = .ok (if b = 0x01 then .byteHuntStart n else .byteHuntSkip n b, rest) ∧
      decode .collect n (b :: rest) = .ok (if b = 0x1A then .byteCollectEnd n else .byteCollectBody n b, rest) ∧
      decode .symbol n (0x1B :: b :: rest) = .ok (if b = 0x1A then .pairIllegal n else .pair n b, rest) ∧
      (b ≠ 0x1B → decode .symbol n (b :: rest) = .ok (.unescLiteral n b, rest))

/-- Words written out from the spec's encodings, one per family of the table. -/
def Obligations.WrittenWordsDecode : Prop :=
  decode .packetFirst 0 [0x01] = .ok (.encStart, []) ∧
    decode .payload 0 [0x41] = .ok (.encPlain 0x41, []) ∧
    decode .payload 0 [0x1A] = .ok (.encStuffEnd, []) ∧
    decode .lookStart 3 [0x1A, 0x01] = .ok (.scanSkip 3 0x1A, [0x01]) ∧
    decode .lookEnd 3 [0x01] = .ok (.scanBody 3 0x01, []) ∧
    decode .escaped 0 [0x1B] = .ok (.unescComplement 0 0x1B, []) ∧
    decode .symbol 0 [0x1B, 0xE5, 0x1A] = .ok (.pair 0 0xE5, [0x1A]) ∧
    decode .symbol 0 [0x1B, 0x1A] = .ok (.pairIllegal 0, []) ∧
    decode .collect 1 [0x1A] = .ok (.byteCollectEnd 1, []) ∧
    decodeTableWord 8 0x1B = some .encStuffEscape ∧ decodeTableWord 16 0x1BFE = some (.pair 0 0xFE)

/-! ### The step -/

/-- A step takes the oldest request and runs the instruction it names, or the well-formed instruction its bytes decode
to in the context the block is in; nothing is around it. With nothing asked for the block holds what it has (R147).
The queue of requests is the model's (log 1). -/
def Obligations.StepRunsDecodedInstruction : Prop :=
  ∀ (s : State) (q : List Request),
    (s.pending = [] → step s = .next s) ∧
    (∀ i, s.pending = .call i :: q → WellFormed i = true → step s = exec i { s with pending := q }) ∧
    (s.pending = .sop :: q → step s = exec .encStart { s with pending := q }) ∧
    (s.pending = .eop :: q → step s = exec .encEnd { s with pending := q }) ∧
    (∀ d i, s.pending = .payloadByte d :: q → decode .payload 0 [d] = .ok (i, []) →
      step s = exec i { s with pending := q }) ∧
    (∀ n b i, s.pending = .rxByte n b :: q →
      decode (if phaseOf (s.rx n).rxbuf = .hunt then .hunt else .collect) n [b] = .ok (i, []) →
      step s = exec i { s with pending := q }) ∧
    (∀ n rs pos b i, s.pending = .nextByte n :: q → Feeding n s rs (.scanStart pos) →
      readByte (s.rx n).rxbuf pos = some b → decode .lookStart n [b] = .ok (i, []) →
      step s = exec i { s with pending := q }) ∧
    (∀ n rs first pos b i, s.pending = .nextByte n :: q → Feeding n s rs (.scanEnd first pos) →
      readByte (s.rx n).rxbuf pos = some b → decode .lookEnd n [b] = .ok (i, []) →
      step s = exec i { s with pending := q }) ∧
    (∀ n rs frame b rest pend out i, s.pending = .nextByte n :: q →
      Feeding n s rs (.unescape frame (b :: rest) pend out) →
      decode (if pend then .escaped else .clear) n [b] = .ok (i, []) → step s = exec i { s with pending := q }) ∧
    (∀ n rs frame b rest out i more, s.pending = .nextSymbol n :: q →
      Feeding n s rs (.unescape frame (b :: rest) false out) →
      decode .symbol n (b :: rest ++ [END]) = .ok (i, more) → step s = exec i { s with pending := q })

/-! ### Reset -/

/-- R33: after reset every Reassembler has an empty buffer, no fault and nothing in progress, and the constants have
their values. -/
def Obligations.ResetValues : Prop :=
  (∀ n, State.reset.rx n = { fault := false, rxbuf := [], feed := none }) ∧
    START = 0x01 ∧ END = 0x1A ∧ ESCAPE = 0x1B

/-- R160, R161: RESET always completes; the Reassembler holds nothing and is not faulted, whatever it held before;
nothing is delivered; nothing else changes. After it a FEED is taken again, whatever BUF_CAP is, the fault included
(R141). -/
def Obligations.ResetConstructs : Prop :=
  ∀ (n : RxId) (s : State), ∃ t, exec (.reset n) s = .next t ∧
    t.rx n = { fault := false, rxbuf := [], feed := none } ∧ RxFrame n s t [] ∧
    exec (.feed n []) t = .next (t.setBuf n [] |>.deliver n (.results []))

/-! ### The Encoder -/

/-- R80, R89: ENCODE completes in every state and for every payload, and hands over START, the payload with every
special byte replaced by ESCAPE and its complement, END; no other state is written. -/
def Obligations.EncodeHandsOverPacket : Prop :=
  ∀ (p : List Byte) (s : State),
    exec (.encode p) s = .next { s with encOut := s.encOut ++
      [[0x01] ++ (p.map fun d => if d = 0x01 ∨ d = 0x1A ∨ d = 0x1B then [0x1B, ~~~d] else [d]).flatten ++ [0x1A]] }

/-- R88 (the spec's own inference from R82 to R87): the length of a packet, with both bounds and when they are met. -/
def Obligations.PacketLength : Prop :=
  (∀ p q : List Byte, Encodes p q →
    let k := p.countP fun d => d = 0x01 ∨ d = 0x1A ∨ d = 0x1B
    q.length = 2 + p.length + k ∧ 2 + p.length ≤ q.length ∧ q.length ≤ 2 + 2 * p.length ∧
      (q.length = 2 + p.length ↔ ∀ d ∈ p, ¬(d = 0x01 ∨ d = 0x1A ∨ d = 0x1B)) ∧
      (q.length = 2 + 2 * p.length ↔ ∀ d ∈ p, d = 0x01 ∨ d = 0x1A ∨ d = 0x1B)) ∧
    ∀ q, Encodes [0x01, 0x1A, 0x1B] q → q.length = 8

/-- R64 (the spec's own inference from R62 and R63): where the three markers stand in a packet. -/
def Obligations.PacketMarkers : Prop :=
  ∀ p q : List Byte, Encodes p q → ∀ i : Nat,
    (q[i]? = some 0x01 ↔ i = 0) ∧
    (q[i]? = some 0x1A ↔ i + 1 = q.length) ∧
    (q[i]? = some 0x1B → 0 < i ∧ i + 2 < q.length ∧
      (q[i + 1]? = some 0xFE ∨ q[i + 1]? = some 0xE5 ∨ q[i + 1]? = some 0xE4)) ∧
    ¬(q[i]? = some 0x1B ∧ q[i + 1]? = some 0x1B) ∧
    ¬(q[i]? = some 0x1B ∧ q[i + 1]? = some 0x1A)

/-- R75 (the spec's own inference from R61 to R64): which byte sequences are packets; the payload is unique; a packet
decodes to a payload that encodes to it. -/
def Obligations.CanonicalPacketRecognised : Prop :=
  (∀ q : List Byte, (∃ p, Encodes p q) ↔
    2 ≤ q.length ∧ q[0]? = some 0x01 ∧ q[q.length - 1]? = some 0x1A ∧
      ∃ p, CanonicalSymbols (q.extract 1 (q.length - 1)) p) ∧
  (∀ p p' q : List Byte, Encodes p q → Encodes p' q → p = p') ∧
  (∀ p q : List Byte, Encodes p q → ∀ n, Feeds n q State.reset [.ok p] [])

/-- R82 to R87 in the view of R110 (log 11): what each byte row of the Encoder emits, inside an open payload (before
it, for ENC.START); nothing else changes. -/
def Obligations.EncoderRowsEmit : Prop :=
  ∀ s : State,
    (s.payloadOpen = false →
      exec .encStart s = .next { s with encOut := s.encOut ++ [[0x01]], payloadOpen := true }) ∧
    (s.payloadOpen = true →
      (∀ d : Byte, d ≠ 0x01 → d ≠ 0x1A → d ≠ 0x1B →
        exec (.encPlain d) s = .next { s with encOut := s.encOut ++ [[d]] }) ∧
      exec .encStuffStart s = .next { s with encOut := s.encOut ++ [[0x1B, 0xFE]] } ∧
      exec .encStuffEnd s = .next { s with encOut := s.encOut ++ [[0x1B, 0xE5]] } ∧
      exec .encStuffEscape s = .next { s with encOut := s.encOut ++ [[0x1B, 0xE4]] } ∧
      exec .encEnd s = .next { s with encOut := s.encOut ++ [[0x1A]], payloadOpen := false })

/-- R110 (the spec's own inference from R80 to R87; log 11): the bit "a payload is open" is 0 at reset, so that of the
events only SOP is offered there; SOP sets the bit and EOP clears it again. -/
def Obligations.NoPayloadOpenAtReset : Prop :=
  State.reset.payloadOpen = false ∧
    (∃ t, exec .encStart State.reset = .next t ∧ t.payloadOpen = true ∧
      ∃ u, exec .encEnd t = .next u ∧ u.payloadOpen = false) ∧
    exec .encEnd State.reset = .refused .payloadNotOpen

/-- R110 (the spec's own inference from R80 to R87; log 11): SOP is offered only while no payload is open, the other
events only while one is: elsewhere the rows are refused by name. -/
def Obligations.EncoderRowsRefusedElsewhere : Prop :=
  ∀ s : State,
    (s.payloadOpen = true → exec .encStart s = .refused .payloadAlreadyOpen) ∧
    (s.payloadOpen = false → ∀ i, (∃ d : Byte, d ≠ 0x01 ∧ d ≠ 0x1A ∧ d ≠ 0x1B ∧ i = .encPlain d) ∨
      i ∈ [Instr.encStuffStart, .encStuffEnd, .encStuffEscape, .encEnd] → exec i s = .refused .payloadNotOpen)

/-- R111 (the spec's own inference from R110 and R80): the outputs of SOP, one DATA event per payload byte and EOP,
taken as steps of the machine, are the packet. -/
def Obligations.EncoderEventsMakePacket : Prop :=
  ∀ (p q : List Byte) (s : State) (more : List Request), Encodes p q → s.payloadOpen = false →
    ∃ outs : List (List Byte), outs.flatten = q ∧ outs.length = p.length + 2 ∧
      runSteps (p.length + 2) { s with pending := [.sop] ++ p.map .payloadByte ++ [.eop] ++ more } =
        .next { s with pending := more, encOut := s.encOut ++ outs }

/-! ### FEED -/

/-- R90, R92 to R99: with BUF_CAP infinite FEED completes; the results it delivers and the buffer it leaves are those
the loop gives for the old buffer followed by the chunk. -/
def Obligations.FeedRunsLoop : Prop :=
  ∀ (n : RxId) (c : List Byte) (s : State), Ready n s → s.cfg.bufCap = none →
    ∃ rs left, Drains ((s.rx n).rxbuf ++ c) rs left ∧ Feeds n c s rs left

/-- R99, R175: with BUF_CAP infinite every FEED ends, with at most half as many results as the buffer after the append
has bytes (the bound is the spec's own inference from R94), and leaves no complete frame behind; its results and the
buffer left are the only ones, and the only ones the loop allows. -/
def Obligations.LoopEnds : Prop :=
  ∀ (n : RxId) (c : List Byte) (s : State), Ready n s → s.cfg.bufCap = none →
    ∃ rs left, Feeds n c s rs left ∧ 2 * rs.length + left.length ≤ ((s.rx n).rxbuf ++ c).length ∧ Settled left ∧
      ∀ rs' left', Feeds n c s rs' left' ∨ Drains ((s.rx n).rxbuf ++ c) rs' left' → rs' = rs ∧ left' = left

/-- R134, R138: with a finite BUF_CAP the chunk is taken byte by byte; while every retained buffer fits, FEED does
what it does without the capacity; as soon as one does not, BufferOverflow is its outcome. That the machine then goes
on with FAULT set is log 3. -/
def Obligations.FeedWithCapacity : Prop :=
  ∀ (n : RxId) (c : List Byte) (s : State) (cap : Nat), Ready n s → s.cfg.bufCap = some cap → Settled (s.rx n).rxbuf →
    ((∀ i < c.length, ∀ rs left, Drains ((s.rx n).rxbuf ++ c.take (i + 1)) rs left → left.length ≤ cap) →
      ∃ rs left, Drains ((s.rx n).rxbuf ++ c) rs left ∧ Feeds n c s rs left) ∧
    (∀ i < c.length, ∀ rs left, Drains ((s.rx n).rxbuf ++ c.take (i + 1)) rs left → cap < left.length →
      ∃ t, exec (.feed n c) s = .next t ∧ Overflowed n s t)

/-- R135 with log 3: on a faulted Reassembler FEED, RX.APPEND and the BYTE rows return the fault again and change
nothing else. -/
def Obligations.FaultReturnedAgain : Prop :=
  ∀ (n : RxId) (s : State), (s.rx n).fault = true →
    ∀ i, (∃ c, i = .feed n c) ∨ (∃ c, i = .rxAppend n c) ∨ (∃ b, b ≠ START ∧ i = .byteHuntSkip n b) ∨
        i = .byteHuntStart n ∨ (∃ b, b ≠ END ∧ i = .byteCollectBody n b) ∨ i = .byteCollectEnd n →
      exec i s = .next { s with rxOut := s.rxOut ++ [{ rx := n, reply := .bufferOverflow }] }

/-- 93 U1 with log 6: an operation that would overlap a FEED in progress on the same Reassembler is refused. -/
def Obligations.OverlapRefused : Prop :=
  ∀ (n : RxId) (s : State) (f : Feed), (s.rx n).fault = false → (s.rx n).feed = some f →
    ∀ i, (∃ c, i = .feed n c) ∨ (∃ c, i = .rxAppend n c) ∨ (∃ b, b ≠ START ∧ i = .byteHuntSkip n b) ∨
        i = .byteHuntStart n ∨ (∃ b, b ≠ END ∧ i = .byteCollectBody n b) ∨ i = .byteCollectEnd n →
      exec i s = .refused .overlappingFeed

/-- R47 (the spec's own inference from R32): FEED of the empty chunk on a buffer a FEED has left returns no results
and changes nothing, for every BUF_CAP. -/
def Obligations.EmptyFeedIdempotent : Prop :=
  ∀ (n : RxId) (s : State), Ready n s → Settled (s.rx n).rxbuf → Feeds n [] s [] (s.rx n).rxbuf

/-- R102 (the spec's own inference from R90 to R100): for every buffer content, cutting a chunk in two changes neither
the results nor the buffer; with a finite BUF_CAP, as long as no fault occurs, and the fault occurs in the one case
exactly when it does in the other. -/
def Obligations.ChunkingDoesNotMatter : Prop :=
  ∀ (n : RxId) (a b : List Byte) (s : State), Ready n s →
    (∃ ra la rb lb t, Feeds n a s ra la ∧ exec (.feed n a) s = .next t ∧ Feeds n b t rb lb ∧
      Feeds n (a ++ b) s (ra ++ rb) lb) ∨
    (s.cfg.bufCap ≠ none ∧ (∃ t, exec (.feed n (a ++ b)) s = .next t ∧ Overflowed n s t) ∧
      ∃ t, exec (.feed n a) s = .next t ∧
        (Overflowed n s t ∨ ∃ u, exec (.feed n b) t = .next u ∧ Overflowed n t u))

/-- R103 (the spec's own inference from R80, R64 and R92 to R98): packets fed to a Reassembler that waits for a START,
noise included, come out as their payloads, in order, and nothing is left; decode of a packet gives its payload; while
a START is waiting, the round trip fails. -/
def Obligations.RoundTrip : Prop :=
  (∀ (n : RxId) (s : State) (pqs : List (List Byte × List Byte)), Ready n s → s.cfg.bufCap = none →
    START ∉ (s.rx n).rxbuf → (∀ x ∈ pqs, Encodes x.1 x.2) → pqs ≠ [] →
    Feeds n (pqs.map (·.2)).flatten s (pqs.map fun x => .ok x.1) []) ∧
  (∀ (n : RxId) (s : State) (p q : List Byte), s.cfg.bufCap = none → Encodes p q →
    ∃ t, exec (.decode n q) s = .next t ∧ t.rx n = { fault := false, rxbuf := [], feed := none } ∧
      RxFrame n s t [.results [.ok p]]) ∧
  (∀ (n : RxId) (s : State) (g u p q : List Byte), Ready n s → s.cfg.bufCap = none →
    (s.rx n).rxbuf = g ++ START :: u → START ∉ g → END ∉ u → Encodes p q →
    ∃ r, Feeds n q s [r] [] ∧ r ≠ .ok p)

/-- R104 (the spec's own inference from R102): from a buffer a FEED has left, the results of any number of FEEDs,
taken as steps of the machine, and the buffer after them are those of one FEED of all the bytes. -/
def Obligations.StreamView : Prop :=
  ∀ (n : RxId) (cs : List (List Byte)) (s : State) (more : List Request), Ready n s → s.cfg.bufCap = none →
    Settled (s.rx n).rxbuf →
    ∃ t ds rs left,
      runSteps cs.length { s with pending := cs.map (fun c => .call (.feed n c)) ++ more } = .next t ∧
      Feeds n cs.flatten s rs left ∧ t.rx n = { fault := false, rxbuf := left, feed := none } ∧
      t.pending = more ∧ t.rxOut = s.rxOut ++ ds ∧ ds.length = cs.length ∧ (∀ d ∈ ds, d.rx = n) ∧
      ds.flatMap Delivery.resultList = rs

/-- R130: a frame gives the error exactly when its interior ends with an ESCAPE that is not itself the second byte of
a pair; every other interior splits into symbols and gives the payload they stand for. -/
def Obligations.MalformedExactly : Prop :=
  ∀ (n : RxId) (u : List Byte) (s : State), Ready n s → s.cfg.bufCap = none → START ∉ (s.rx n).rxbuf → END ∉ u →
    ((∃ v p, Symbols v p ∧ u = v ++ [ESCAPE]) ↔
      Feeds n (START :: u ++ [END]) s [.err .malformedFrame] []) ∧
    (∀ p, Symbols u p ↔ Feeds n (START :: u ++ [END]) s [.ok p] [])

/-- R132: a malformed frame never stops the Reassembler, never sets FAULT and never loses another frame: the frames
before and after it in the same chunk give what they give without it. -/
def Obligations.MalformedIsLocal : Prop :=
  ∀ (n : RxId) (before g v p after left : List Byte) (rs rs' : List DecodeResult) (s : State), Ready n s →
    s.cfg.bufCap = none → Drains ((s.rx n).rxbuf ++ before) rs [] → START ∉ g → Symbols v p → END ∉ v →
    Drains after rs' left →
    Feeds n (before ++ g ++ START :: v ++ ESCAPE :: END :: after) s (rs ++ [.err .malformedFrame] ++ rs') left

/-- R167 (the spec's own inference from R93 and R106): a START inside an open frame does not resynchronise: it is
interior data; the damage ends with the first END. -/
def Obligations.NoResynchronisation : Prop :=
  ∀ (n : RxId) (g t u after left : List Byte) (rs : List DecodeResult) (s : State), Ready n s → s.cfg.bufCap = none →
    (s.rx n).rxbuf = g ++ START :: t → START ∉ g → END ∉ t → END ∉ u → Drains after rs left →
    ∃ r, FrameResult (t ++ START :: u) r ∧ Feeds n (START :: u ++ END :: after) s (r :: rs) left

/-- R163 (the spec's own inference from R64 and R103), and R169's lost START: a receiver that joins a stream of
packets anywhere behind a packet's first byte decodes every packet that begins after that. -/
def Obligations.JoinMidStream : Prop :=
  ∀ (n : RxId) (p q : List Byte) (k : Nat) (pqs : List (List Byte × List Byte)) (s : State), Ready n s →
    s.cfg.bufCap = none → START ∉ (s.rx n).rxbuf → Encodes p q → 1 ≤ k → (∀ x ∈ pqs, Encodes x.1 x.2) → pqs ≠ [] →
    Feeds n (q.drop k ++ (pqs.map (·.2)).flatten) s (pqs.map fun x => .ok x.1) []

/-- R31 (the spec's own inference from R92 and R94): with BUF_CAP infinite, orphan bytes are not observable: two
buffers that differ only in them return the same outcomes for every sequence of chunks. -/
def Obligations.OrphansUnobservable : Prop :=
  ∀ (n : RxId) (cs : List (List Byte)) (s s' : State), Ready n s → Ready n s' → s.cfg.bufCap = none →
    s'.cfg.bufCap = none → SameButOrphans (s.rx n).rxbuf (s'.rx n).rxbuf →
    ∃ t t' ds, runSteps cs.length { s with pending := cs.map fun c => .call (.feed n c) } = .next t ∧
      runSteps cs.length { s' with pending := cs.map fun c => .call (.feed n c) } = .next t' ∧
      t.rxOut = s.rxOut ++ ds ∧ t'.rxOut = s'.rxOut ++ ds ∧ ds.length = cs.length ∧
      SameButOrphans (t.rx n).rxbuf (t'.rx n).rxbuf

/-- R74: decode is RESET of the Reassembler followed by FEED on it, as one operation, for every BUF_CAP; with BUF_CAP
infinite it completes in every state. That the fresh Reassembler is the one named is log 8. -/
def Obligations.DecodeIsResetThenFeed : Prop :=
  ∀ (n : RxId) (x : List Byte) (s : State),
    (∃ t, exec (.reset n) s = .next t ∧ exec (.decode n x) s = exec (.feed n x) t) ∧
    (s.cfg.bufCap = none → ∃ rs left t, Drains x rs left ∧ exec (.decode n x) s = .next t ∧
      t.rx n = { fault := false, rxbuf := left, feed := none } ∧ RxFrame n s t [.results rs])

/-! ### The steps of FEED -/

/-- R91 and the transient values at the start of a FEED (R26): with BUF_CAP infinite RX.APPEND always completes and
puts the chunk behind the bytes held, each of which stays at its index (R45). -/
def Obligations.AppendStep : Prop :=
  ∀ (n : RxId) (c : List Byte) (s : State), Ready n s → s.cfg.bufCap = none → ∃ t, exec (.rxAppend n c) s = .next t ∧
    t.rx n = { fault := false, rxbuf := (s.rx n).rxbuf ++ c,
               feed := some { results := [], pass := .scanStart 0 } } ∧
    RxFrame n s t [] ∧ ∀ a < (s.rx n).rxbuf.length, readByte (t.rx n).rxbuf a = readByte (s.rx n).rxbuf a

/-- With a finite BUF_CAP, RX.APPEND appends as R91 says when the FEED of the chunk completes without a fault, and
overflows exactly when that FEED does. Where the overflow of a FEED taken by steps is noticed is the model's choice
(log 5). -/
def Obligations.AppendWithCapacity : Prop :=
  ∀ (n : RxId) (c : List Byte) (s : State), Ready n s → s.cfg.bufCap ≠ none →
    ((∃ rs left, Feeds n c s rs left) → ∃ t, exec (.rxAppend n c) s = .next t ∧
      t.rx n = { fault := false, rxbuf := (s.rx n).rxbuf ++ c,
                 feed := some { results := [], pass := .scanStart 0 } } ∧
      RxFrame n s t [] ∧ ∀ a < (s.rx n).rxbuf.length, readByte (t.rx n).rxbuf a = readByte (s.rx n).rxbuf a) ∧
    ((∃ t, exec (.feed n c) s = .next t ∧ Overflowed n s t) →
      ∃ t, exec (.rxAppend n c) s = .next t ∧ Overflowed n s t)

/-- R92, R93: RX.SCAN_START finds the first START from index 0 or leaves the loop; RX.SCAN_END finds the first END
behind it or leaves the loop; neither changes the buffer. -/
def Obligations.ScanSteps : Prop :=
  ∀ (n : RxId) (s : State) (rs : List DecodeResult) (pos : Nat),
    (Feeding n s rs (.scanStart pos) →
      (START ∉ (s.rx n).rxbuf → ∃ t, exec (.rxScanStart n) s = .next t ∧
        t.rx n = inPass (s.rx n) rs .stopped ∧ RxFrame n s t []) ∧
      (∀ g u, (s.rx n).rxbuf = g ++ START :: u → START ∉ g → ∃ t, exec (.rxScanStart n) s = .next t ∧
        t.rx n = inPass (s.rx n) rs (.scanEnd g.length (g.length + 1)) ∧
        RxFrame n s t [])) ∧
    (∀ g u, (s.rx n).rxbuf = g ++ START :: u → Feeding n s rs (.scanEnd g.length pos) →
      (END ∉ u → ∃ t, exec (.rxScanEnd n) s = .next t ∧
        t.rx n = inPass (s.rx n) rs .stopped ∧ RxFrame n s t []) ∧
      (∀ v w, u = v ++ END :: w → END ∉ v → ∃ t, exec (.rxScanEnd n) s = .next t ∧
        t.rx n = inPass (s.rx n) rs (.found g.length (g.length + 1 + v.length)) ∧ RxFrame n s t []))

/-- R94, R95: RX.EXTRACT takes the frame out with everything before it; every byte behind the END stays, now from
index 0 (R41). The interior, START and END cut off, is what is unescaped next. -/
def Obligations.ExtractStep : Prop :=
  ∀ (n : RxId) (s : State) (rs : List DecodeResult) (g u more : List Byte),
    (s.rx n).rxbuf = g ++ START :: u ++ END :: more →
    Feeding n s rs (.found g.length (g.length + 1 + u.length)) →
    ∃ t, exec (.rxExtract n) s = .next t ∧
      t.rx n = inPass { s.rx n with rxbuf := more } rs (.unescape (START :: u ++ [END]) u false []) ∧
      RxFrame n s t [] ∧
      ∀ k, readByte (t.rx n).rxbuf k = readByte (s.rx n).rxbuf (g.length + 1 + u.length + 1 + k)

/-- R96 to R98, R100: RX.UNESCAPE gives the payload and the flag of the whole interior; RX.EMIT_ERR and RX.EMIT_OK
append the one result of the frame and go back to step 2a; RX.RETURN hands the results over and ends the FEED. -/
def Obligations.UnescapeAndEmitSteps : Prop :=
  ∀ (n : RxId) (s : State) (rs : List DecodeResult),
    (∀ u rest pend out, Feeding n s rs (.unescape (START :: u ++ [END]) rest pend out) →
      (∀ p, Symbols u p → ∃ t, exec (.rxUnescape n) s = .next t ∧ RxFrame n s t [] ∧
        t.rx n = inPass (s.rx n) rs (.unescape (START :: u ++ [END]) [] false p)) ∧
      (∀ v p, Symbols v p → u = v ++ [ESCAPE] → ∃ t, exec (.rxUnescape n) s = .next t ∧ RxFrame n s t [] ∧
        t.rx n = inPass (s.rx n) rs (.unescape (START :: u ++ [END]) [] true p))) ∧
    (∀ frame out, Feeding n s rs (.unescape frame [] true out) → ∃ t, exec (.rxEmitErr n) s = .next t ∧
      RxFrame n s t [] ∧ t.rx n = inPass (s.rx n) (rs ++ [.err .malformedFrame]) (.scanStart 0)) ∧
    (∀ frame out, Feeding n s rs (.unescape frame [] false out) → ∃ t, exec (.rxEmitOk n) s = .next t ∧
      RxFrame n s t [] ∧ t.rx n = inPass (s.rx n) (rs ++ [.ok out]) (.scanStart 0)) ∧
    (Feeding n s rs .stopped → ∃ t, exec (.rxReturn n) s = .next t ∧
      RxFrame n s t [.results rs] ∧ t.rx n = { s.rx n with feed := none })

/-- R27, R90: the steps of FEED run only in their order: each is refused by name at every other place of the loop, and
while no FEED is in progress. -/
def Obligations.StepsOutOfOrderRefused : Prop :=
  ∀ (n : RxId) (s : State),
    ((s.rx n).feed = none → ∀ i ∈ laterSteps n, exec i s = .refused .noFeedInProgress) ∧
    ∀ f, (s.rx n).feed = some f →
      ((∀ pos, f.pass ≠ .scanStart pos) → exec (.rxScanStart n) s = .refused .stepOutOfOrder) ∧
      ((∀ i pos, f.pass ≠ .scanEnd i pos) → exec (.rxScanEnd n) s = .refused .stepOutOfOrder) ∧
      ((∀ i j, f.pass ≠ .found i j) → exec (.rxExtract n) s = .refused .stepOutOfOrder) ∧
      ((∀ fr rest pend out, f.pass ≠ .unescape fr rest pend out) →
        exec (.rxUnescape n) s = .refused .stepOutOfOrder) ∧
      ((∀ fr out, f.pass ≠ .unescape fr [] true out) → exec (.rxEmitErr n) s = .refused .stepOutOfOrder) ∧
      ((∀ fr out, f.pass ≠ .unescape fr [] false out) → exec (.rxEmitOk n) s = .refused .stepOutOfOrder) ∧
      (f.pass ≠ .stopped → exec (.rxReturn n) s = .refused .stepOutOfOrder)

/-- R90: FEED is its named steps one after the other: RX.APPEND, then steps 2a to 2f as often as the loop goes round,
then RX.RETURN, and the whole state after them is the one after FEED, for every BUF_CAP. -/
def Obligations.FeedIsItsSteps : Prop :=
  ∀ (n : RxId) (c : List Byte) (s : State), Ready n s → Settled (s.rx n).rxbuf →
    ∃ is : List Instr, (∀ i ∈ is, i ∈ laterSteps n) ∧
      runInstrs (.rxAppend n c :: is) s = exec (.feed n c) s ∧ ∃ t, exec (.feed n c) s = .next t

/-! ### The byte rows of the decoder -/

/-- R92, R93, contexts A and B of R67: each SCAN row completes on the byte it stands for and moves the scan on by one
byte, or ends it; the buffer stays as it is. -/
def Obligations.ScanRows : Prop :=
  ∀ (n : RxId) (s : State) (rs : List DecodeResult) (pos first : Nat) (b : Byte),
    (Feeding n s rs (.scanStart pos) → readByte (s.rx n).rxbuf pos = some b →
      (b = START → ∃ t, exec (.scanStart n) s = .next t ∧ RxFrame n s t [] ∧
        t.rx n = inPass (s.rx n) rs (.scanEnd pos (pos + 1))) ∧
      (b ≠ START → ∃ t, exec (.scanSkip n b) s = .next t ∧ RxFrame n s t [] ∧
        t.rx n = inPass (s.rx n) rs (.scanStart (pos + 1)))) ∧
    (Feeding n s rs (.scanEnd first pos) → readByte (s.rx n).rxbuf pos = some b →
      (b = END → ∃ t, exec (.scanEnd n) s = .next t ∧ RxFrame n s t [] ∧
        t.rx n = inPass (s.rx n) rs (.found first pos)) ∧
      (b ≠ END → ∃ t, exec (.scanBody n b) s = .next t ∧ RxFrame n s t [] ∧
        t.rx n = inPass (s.rx n) rs (.scanEnd first (pos + 1))))

/-- R44: there is no read outside the buffer: a SCAN row asked for where no byte is faults by name. -/
def Obligations.NoReadOutsideBuffer : Prop :=
  ∀ (n : RxId) (s : State) (rs : List DecodeResult) (pos first : Nat), (s.rx n).rxbuf.length ≤ pos →
    (Feeding n s rs (.scanStart pos) → exec (.scanStart n) s = .fault (.noSuchAddress n pos) ∧
      ∀ b, b ≠ START → exec (.scanSkip n b) s = .fault (.noSuchAddress n pos)) ∧
    (Feeding n s rs (.scanEnd first pos) → exec (.scanEnd n) s = .fault (.noSuchAddress n pos) ∧
      ∀ b, b ≠ END → exec (.scanBody n b) s = .fault (.noSuchAddress n pos))

/-- R105, R106, R107: the three byte rows of the unescaper. -/
def Obligations.UnescapeRows : Prop :=
  ∀ (n : RxId) (s : State) (rs : List DecodeResult) (frame rest out : List Byte) (x : Byte),
    (Feeding n s rs (.unescape frame (ESCAPE :: rest) false out) →
      ∃ t, exec (.unescEscape n) s = .next t ∧ RxFrame n s t [] ∧
        t.rx n = inPass (s.rx n) rs (.unescape frame rest true out)) ∧
    (x ≠ ESCAPE → Feeding n s rs (.unescape frame (x :: rest) false out) →
      ∃ t, exec (.unescLiteral n x) s = .next t ∧ RxFrame n s t [] ∧
        t.rx n = inPass (s.rx n) rs (.unescape frame rest false (out ++ [x]))) ∧
    (Feeding n s rs (.unescape frame (x :: rest) true out) →
      ∃ t, exec (.unescComplement n x) s = .next t ∧ RxFrame n s t [] ∧
        t.rx n = inPass (s.rx n) rs (.unescape frame rest false (out ++ [0xFF ^^^ x])))

/-- R63, R65, R69, R70: PAIR is UNESC.ESCAPE followed by UNESC.COMPLEMENT, and completes for every second byte but
END; PAIR.ILLEGAL is UNESC.ESCAPE followed by RX.EMIT_ERR at the end of the interior. -/
def Obligations.PairRows : Prop :=
  ∀ (n : RxId) (s : State) (rs : List DecodeResult) (frame rest out : List Byte) (c : Byte),
    (c ≠ END → Feeding n s rs (.unescape frame (ESCAPE :: c :: rest) false out) →
      (∃ t, exec (.pair n c) s = .next t ∧ RxFrame n s t [] ∧
        t.rx n = inPass (s.rx n) rs (.unescape frame rest false (out ++ [0xFF ^^^ c]))) ∧
      runInstrs [.unescEscape n, .unescComplement n c] s = exec (.pair n c) s) ∧
    (Feeding n s rs (.unescape frame [ESCAPE] false out) →
      (∃ t, exec (.pairIllegal n) s = .next t ∧ RxFrame n s t [] ∧
        t.rx n = inPass (s.rx n) (rs ++ [.err .malformedFrame]) (.scanStart 0)) ∧
      runInstrs [.unescEscape n, .rxEmitErr n] s = exec (.pairIllegal n) s)

/-- R92, R93: the scans taken one byte per step of the machine, each byte decoded in its context, end where
RX.SCAN_START and RX.SCAN_END end. -/
def Obligations.ScanByteByByte : Prop :=
  ∀ (n : RxId) (s : State) (rs : List DecodeResult) (g u : List Byte) (more : List Request),
    ((s.rx n).rxbuf = g ++ START :: u → START ∉ g → Feeding n s rs (.scanStart 0) →
      runSteps (g.length + 1) { s with pending := List.replicate (g.length + 1) (.nextByte n) ++ more } =
        exec (.rxScanStart n) { s with pending := more }) ∧
    (∀ first v, (s.rx n).rxbuf.drop (first + 1) = v ++ END :: u → END ∉ v →
      Feeding n s rs (.scanEnd first (first + 1)) →
      runSteps (v.length + 1) { s with pending := List.replicate (v.length + 1) (.nextByte n) ++ more } =
        exec (.rxScanEnd n) { s with pending := more })

/-- R96, R118: an interior unescaped one byte per step of the machine, each byte decoded in context C or D by the
flag, ends where RX.UNESCAPE ends. -/
def Obligations.UnescapeByteByByte : Prop :=
  ∀ (n : RxId) (s : State) (rs : List DecodeResult) (u : List Byte) (more : List Request),
    Feeding n s rs (.unescape (START :: u ++ [END]) u false []) →
    runSteps u.length { s with pending := List.replicate u.length (.nextByte n) ++ more } =
      exec (.rxUnescape n) { s with pending := more }

/-! ### The byte-serial view -/

/-- R113 to R116 (the spec's own inferences from R92 to R98): one received byte in each phase, with the buffer written
as R112 abstracts it. A byte that completes no frame gives no result: an empty result sequence (log 9). -/
def Obligations.ByteSteps : Prop :=
  ∀ (n : RxId) (s : State) (g u : List Byte) (b : Byte), Ready n s → START ∉ g →
    ((s.rx n).rxbuf = g → (∀ cap, s.cfg.bufCap = some cap → g.length < cap) →
      (b ≠ START → ∃ t, exec (.byteHuntSkip n b) s = .next t ∧ RxFrame n s t [.results []] ∧
        t.rx n = { fault := false, rxbuf := g ++ [b], feed := none } ∧ phaseOf (t.rx n).rxbuf = .hunt) ∧
      ∃ t, exec (.byteHuntStart n) s = .next t ∧ RxFrame n s t [.results []] ∧
        t.rx n = { fault := false, rxbuf := g ++ START :: [], feed := none } ∧
        phaseOf (t.rx n).rxbuf = .collect ∧ orphans (t.rx n).rxbuf = g ∧ openTail (t.rx n).rxbuf = []) ∧
    ((s.rx n).rxbuf = g ++ START :: u →
      (b ≠ END → (∀ cap, s.cfg.bufCap = some cap → g.length + 1 + u.length < cap) →
        ∃ t, exec (.byteCollectBody n b) s = .next t ∧ RxFrame n s t [.results []] ∧
          t.rx n = { fault := false, rxbuf := g ++ START :: (u ++ [b]), feed := none } ∧
          phaseOf (t.rx n).rxbuf = .collect ∧ orphans (t.rx n).rxbuf = g ∧ openTail (t.rx n).rxbuf = u ++ [b]) ∧
      ∃ r t, FrameResult u r ∧ exec (.byteCollectEnd n) s = .next t ∧ RxFrame n s t [.results [r]] ∧
        t.rx n = { fault := false, rxbuf := [], feed := none } ∧ phaseOf (t.rx n).rxbuf = .hunt)

/-- R120 (the spec's own inference from R112), R138: a byte held at occupancy BUF_CAP is the overflow; the byte that
completes a frame never overflows; a BYTE step that does not overflow raises the occupancy by one or sets it to 0. -/
def Obligations.ByteOccupancy : Prop :=
  ∀ (n : RxId) (s : State) (b : Byte), Ready n s →
    (∀ i, (b ≠ START ∧ i = .byteHuntSkip n b) ∨ i = .byteHuntStart n ∨ (b ≠ END ∧ i = .byteCollectBody n b) →
      ∀ t, exec i s = .next t →
        (s.cfg.bufCap = some (s.rx n).rxbuf.length → Overflowed n s t) ∧
        ((t.rx n).fault = false → (t.rx n).rxbuf.length = (s.rx n).rxbuf.length + 1)) ∧
    ∀ t, exec (.byteCollectEnd n) s = .next t → (t.rx n).fault = false ∧ (t.rx n).rxbuf.length = 0

/-- A BYTE row of the other phase is refused by name (R113 to R116: each row names its phase). -/
def Obligations.BytePhases : Prop :=
  ∀ (n : RxId) (s : State) (b : Byte), Ready n s →
    (START ∈ (s.rx n).rxbuf → (b ≠ START → exec (.byteHuntSkip n b) s = .refused .wrongPhase) ∧
      exec (.byteHuntStart n) s = .refused .wrongPhase) ∧
    (START ∉ (s.rx n).rxbuf → (b ≠ END → exec (.byteCollectBody n b) s = .refused .wrongPhase) ∧
      exec (.byteCollectEnd n) s = .refused .wrongPhase)

/-- R117 (the spec's own inference from R112 to R116 and R102): a chunk taken one received byte per step of the
machine, each byte decoded in the phase the block is in, gives the results of FEED of the chunk and the same buffer;
with a finite BUF_CAP the one overflows exactly when the other does. -/
def Obligations.ByteSerialEqualsFeed : Prop :=
  ∀ (n : RxId) (c : List Byte) (s : State) (more : List Request), Ready n s → Settled (s.rx n).rxbuf →
    ∃ t u ds, runSteps c.length { s with pending := c.map (.rxByte n) ++ more } = .next t ∧
      exec (.feed n c) { s with pending := more } = .next u ∧
      t.rxOut = s.rxOut ++ ds ∧ ds.length = c.length ∧ (∀ d ∈ ds, d.rx = n ∧ d.resultList.length ≤ 1) ∧
      (t.rx n).fault = (u.rx n).fault ∧ (s.cfg.bufCap = none → (u.rx n).fault = false) ∧
      ((u.rx n).fault = false → t.rx n = u.rx n ∧
        u.rxOut = s.rxOut ++ [{ rx := n, reply := .results (ds.flatMap Delivery.resultList) }])

/-! ### Rules over all instructions -/

/-- R30, R51 (4), R146, R161: an instruction changes no Reassembler but the one it acts on, and the Encoder's change
none: not one byte of another buffer, nor its fault, nor a FEED in progress on it. -/
def Obligations.ReassemblersIsolated : Prop :=
  ∀ (i : Instr) (s t : State), exec i s = .next t → ∀ m, i.target ≠ some m →
    t.rx m = s.rx m ∧ ∀ a, readByte (t.rx m).rxbuf a = readByte (s.rx m).rxbuf a

/-- No instruction writes BUF_CAP or the queue of requests; the Encoder's leave RX_OUT, the Reassemblers' leave
ENC_OUT and the open payload; what was handed over stays handed over (R138: results of earlier FEEDs stand). -/
def Obligations.ChannelsOnlyGrow : Prop :=
  ∀ (i : Instr) (s t : State), exec i s = .next t →
    t.cfg = s.cfg ∧ t.pending = s.pending ∧ (∃ l, t.encOut = s.encOut ++ l) ∧ (∃ l, t.rxOut = s.rxOut ++ l) ∧
      (i.target = none → t.rxOut = s.rxOut ∧ t.draws = s.draws) ∧
      ∀ n, i.target = some n → t.encOut = s.encOut ∧ t.payloadOpen = s.payloadOpen ∧
        ∀ d ∈ t.rxOut.drop s.rxOut.length, d.rx = n

/-- R23, R45, R46: RXBUF is changed only by appending what the instruction brings and by removing a prefix; no byte is
changed, reordered or removed from the middle or the end. (RESET and decode construct the Reassembler anew; after
BufferOverflow RXBUF is unspecified.) -/
def Obligations.BufferDiscipline : Prop :=
  ∀ (i : Instr) (s t : State) (n : RxId), exec i s = .next t → i.target = some n → ¬constructs i n →
    (t.rx n).fault = false →
    ∃ k ≤ ((s.rx n).rxbuf ++ incoming i).length, (t.rx n).rxbuf = ((s.rx n).rxbuf ++ incoming i).drop k

/-- R91, R94: of the steps and byte rows of a FEED only RX.APPEND and RX.EXTRACT write RXBUF, and none but RX.APPEND
can set FAULT. -/
def Obligations.StepsLeaveBuffer : Prop :=
  ∀ (n : RxId) (i : Instr) (s t : State),
    i ∈ [Instr.rxScanStart n, .rxScanEnd n, .rxUnescape n, .rxEmitErr n, .rxEmitOk n, .rxReturn n, .scanStart n,
      .scanEnd n, .unescEscape n, .pairIllegal n] ∨
      (∃ b, i ∈ [Instr.scanSkip n b, .scanBody n b, .unescLiteral n b, .unescComplement n b, .pair n b]) →
    exec i s = .next t →
    (t.rx n).fault = (s.rx n).fault ∧ (t.rx n).rxbuf = (s.rx n).rxbuf ∧
      (∀ a, readByte (t.rx n).rxbuf a = readByte (s.rx n).rxbuf a) ∧ t.draws = s.draws

/-- R28, R134, R135: FAULT is set only by BufferOverflow, under a finite BUF_CAP, with the fault as the outcome; it is
cleared only by constructing the Reassembler anew. -/
def Obligations.FaultOnlyByOverflow : Prop :=
  ∀ (i : Instr) (s t : State) (n : RxId), exec i s = .next t →
    ((s.rx n).fault = true → ¬constructs i n → (t.rx n).fault = true) ∧
    ((s.rx n).fault = false → (t.rx n).fault = true →
      i.target = some n ∧ s.cfg.bufCap ≠ none ∧
        t.rxOut = s.rxOut ++ [{ rx := n, reply := .bufferOverflow }])

/-- R32, R22, R28: the invariant holds of the state after reset. -/
def Obligations.InvariantAtReset : Prop :=
  BlockInv State.reset

/-- R32, R22, R28 and the canonical form of the bank: every step keeps the invariant, from every state that meets it.
-/
def Obligations.InvariantKept : Prop :=
  ∀ s t : State, BlockInv s → step s = .next t → BlockInv t
end

