-- ==== Sys2Proof/Laws/Bank.lean ====
section
/-!
SUPPORT. The laws of the bank of Reassemblers: reading after writing, and that writing keeps the canonical form.
-/

namespace Sys2Proof.Machine

@[simp] theorem bankGet_nil (n : RxId) : bankGet [] n = Reassembler.fresh := by cases n <;> rfl

theorem bankGet_cons_zero (x : Reassembler) (t : List Reassembler) : bankGet (bankCons x t) 0 = x := by
  unfold bankCons
  split
  · rename_i h; simp [h.1]
  · rfl

theorem bankGet_cons_succ (x : Reassembler) (t : List Reassembler) (n : RxId) :
    bankGet (bankCons x t) (n + 1) = bankGet t n := by
  unfold bankCons
  split
  · rename_i h; simp [h.2]
  · rfl

/-- A read after a write of the same Reassembler. -/
@[simp] theorem bankGet_put_same (l : List Reassembler) (n : RxId) (x : Reassembler) :
    bankGet (bankPut l n x) n = x := by
  induction n generalizing l with
  | zero => cases l <;> simp [bankPut, bankGet_cons_zero]
  | succ n ih => cases l <;> simp [bankPut, bankGet_cons_succ, ih]

/-- A write leaves every other Reassembler alone. -/
theorem bankGet_put_other (l : List Reassembler) {n : RxId} (x : Reassembler) {m : RxId} (h : m ≠ n) :
    bankGet (bankPut l n x) m = bankGet l m := by
  induction n generalizing l m with
  | zero =>
    obtain ⟨m, rfl⟩ := Nat.exists_eq_succ_of_ne_zero h
    cases l <;> simp [bankPut, bankGet_cons_succ, bankGet]
  | succ n ih =>
    cases m with
    | zero => cases l <;> simp [bankPut, bankGet_cons_zero, bankGet]
    | succ m =>
      have h' : m ≠ n := fun e => h (by rw [e])
      cases l <;> simp [bankPut, bankGet_cons_succ, ih _ h', bankGet]

theorem bankCons_wf (x : Reassembler) (t : List Reassembler) (h : bankWf t = true) : bankWf (bankCons x t) = true := by
  unfold bankCons
  split
  · rfl
  · rename_i hx
    cases t with
    | nil => simpa [bankWf] using hx
    | cons y t => simpa [bankWf] using h

theorem bankWf_tail {x : Reassembler} {t : List Reassembler} (h : bankWf (x :: t) = true) : bankWf t = true := by
  cases t with
  | nil => rfl
  | cons y t => simpa [bankWf] using h

/-- A write keeps the canonical form. -/
theorem bankPut_wf (l : List Reassembler) (n : RxId) (x : Reassembler) (h : bankWf l = true) :
    bankWf (bankPut l n x) = true := by
  induction n generalizing l with
  | zero =>
    cases l with
    | nil => exact bankCons_wf _ _ rfl
    | cons y t => exact bankCons_wf _ _ (bankWf_tail h)
  | succ n ih =>
    cases l with
    | nil => exact bankCons_wf _ _ (ih _ rfl)
    | cons y t => exact bankCons_wf _ _ (ih _ (bankWf_tail h))

/-- The second of two writes of one Reassembler wins. -/
theorem bankPut_put (l : List Reassembler) (n : RxId) (x y : Reassembler) :
    bankPut (bankPut l n x) n y = bankPut l n y := by
  induction n generalizing l with
  | zero => cases l <;> (simp only [bankPut, bankCons]; split <;> simp_all [bankPut, bankCons])
  | succ n ih =>
    have key : ∀ (z : Reassembler) (t : List Reassembler),
        bankPut (bankCons z (bankPut t n x)) (n + 1) y = bankCons z (bankPut t n y) := by
      intro z t
      unfold bankCons
      split
      · rename_i h
        have := ih t
        rw [h.2] at this
        simp only [bankPut, this, h.1, bankCons]
      · simp only [bankPut, ih, bankCons]
    cases l <;> exact key _ _

/-- Writing back what is there, where that is not a Reassembler just constructed. -/
theorem bankPut_get (l : List Reassembler) (n : RxId) (h : bankGet l n ≠ Reassembler.fresh) :
    bankPut l n (bankGet l n) = l := by
  induction n generalizing l with
  | zero =>
    cases l with
    | nil => exact absurd rfl h
    | cons y t =>
      have : y ≠ Reassembler.fresh := h
      simp [bankPut, bankGet, bankCons, this]
  | succ n ih =>
    cases l with
    | nil => exact absurd rfl h
    | cons y t =>
      have h' : bankGet t n ≠ Reassembler.fresh := h
      have ht : t ≠ [] := by rintro rfl; exact h' (bankGet_nil n)
      simp [bankPut, bankGet, bankCons, ih t h', ht]

end Sys2Proof.Machine
end

