-- ==== Sys2Proof/Laws/Buffer.lean ====
section
/-!
SUPPORT. One lemma per operation on a buffer: what `find`, `extract`, `drain`, `unescape`, `feedAll` and `feedCapped`
give, in the terms of Safety.lean.
-/

namespace Sys2Proof.Machine

theorem cells_wf (buf : List Byte) : Memory.wf (cells buf) = true := by
  have h : (cells buf).map (·.1) = List.range buf.length := by
    apply List.ext_getElem <;> simp [cells]
  have hl : (cells buf).length = buf.length := by simp [cells]
  simp [Memory.wf, h, hl]

/-! ### find -/

theorem find_none {v : Byte} {s : List Byte} : find v s 0 = none ↔ v ∉ s := by
  induction s with
  | nil => simp [find]
  | cons x s ih =>
    by_cases h : x = v
    · simp [find, h]
    · simp [find, h, ih, Ne.symm h]

theorem find_append {v : Byte} {g t : List Byte} (h : v ∉ g) : find v (g ++ v :: t) 0 = some g.length := by
  induction g with
  | nil => simp [find]
  | cons x g ih =>
    rw [List.mem_cons, not_or] at h
    simp [find, Ne.symm h.1, ih h.2]

theorem find_some {v : Byte} {s : List Byte} {i : Nat} (h : find v s 0 = some i) :
    ∃ g t, s = g ++ v :: t ∧ v ∉ g ∧ g.length = i := by
  by_cases hv : v ∈ s
  · obtain ⟨g, t, rfl, hg⟩ := List.eq_append_cons_of_mem hv
    rw [find_append hg] at h
    exact ⟨g, t, rfl, hg, by simpa using h⟩
  · rw [find_none.mpr hv] at h; cases h

theorem find_from {v : Byte} {s : List Byte} {k : Nat} : find v s k = (find v (s.drop k) 0).map (· + k) := by
  induction k generalizing s with
  | zero => simp
  | succ k ih =>
    cases s with
    | nil => simp [find]
    | cons x s =>
      simp only [find, ih, List.drop_succ_cons, Option.map_map]
      congr 1

/-! ### extract -/

theorem interior_frame (u : List Byte) : interior (START :: u ++ [END]) = u := by
  simp [interior, slice]

theorem extract_noStart {buf : List Byte} (h : START ∉ buf) : extract buf = none := by
  simp [extract, find_none.mpr h]

theorem extract_noEnd {g t : List Byte} (hg : START ∉ g) (ht : END ∉ t) : extract (g ++ START :: t) = none := by
  have : find END (g ++ START :: t) (g.length + 1) = none := by
    have hd : (g ++ START :: t).drop (g.length + 1) = t := by rw [List.drop_append]; simp
    rw [find_from, hd, find_none.mpr ht]; rfl
  simp only [extract, find_append hg, this]

theorem extract_frame {g u more : List Byte} (hg : START ∉ g) (hu : END ∉ u) :
    extract (g ++ START :: u ++ END :: more) = some (START :: u ++ [END], more) := by
  have h1 : find START (g ++ START :: u ++ END :: more) 0 = some g.length := by
    rw [List.append_assoc]; exact find_append hg
  have h2 : find END (g ++ START :: u ++ END :: more) (g.length + 1) = some (u.length + (g.length + 1)) := by
    have : (g ++ START :: u ++ END :: more).drop (g.length + 1) = u ++ END :: more := by
      rw [List.append_assoc, List.drop_append]; simp
    rw [find_from, this, find_append hu]; rfl
  have h3 : (g ++ START :: u ++ END :: more).drop g.length = (START :: u ++ [END]) ++ more := by
    rw [List.append_assoc, List.drop_left]; simp
  have h4 : (g ++ START :: u ++ END :: more).drop (u.length + (g.length + 1) + 1) = more := by
    have : g ++ START :: u ++ END :: more = (g ++ START :: u ++ [END]) ++ more := by simp
    rw [this, List.drop_left']; simp; omega
  simp only [extract, h1, h2, slice, removeThrough, h3, h4]
  rw [List.take_left']
  simp; omega

/-- Every buffer is of one of the three shapes a pass of the loop distinguishes. -/
theorem buffer_shape (buf : List Byte) :
    START ∉ buf ∨ (∃ g t, buf = g ++ START :: t ∧ START ∉ g ∧ END ∉ t) ∨
      ∃ g u more, buf = g ++ START :: u ++ END :: more ∧ START ∉ g ∧ END ∉ u := by
  by_cases hs : START ∈ buf
  · obtain ⟨g, t, rfl, hg⟩ := List.eq_append_cons_of_mem hs
    by_cases he : END ∈ t
    · obtain ⟨u, more, rfl, hu⟩ := List.eq_append_cons_of_mem he
      exact .inr (.inr ⟨g, u, more, by simp, hg, hu⟩)
    · exact .inr (.inl ⟨g, t, rfl, hg, he⟩)
  · exact .inl hs

theorem extract_none {buf : List Byte} : extract buf = none ↔ Settled buf := by
  constructor
  · intro h
    rcases buffer_shape buf with hs | hs | ⟨g, u, more, rfl, hg, hu⟩
    · exact .inl hs
    · exact .inr hs
    · rw [extract_frame hg hu] at h; cases h
  · rintro (h | ⟨g, t, rfl, hg, ht⟩)
    · exact extract_noStart h
    · exact extract_noEnd hg ht

/-- What one pass of the loop takes: orphan bytes, START, interior, END, and leaves the rest. -/
theorem extract_some {buf frame more : List Byte} (h : extract buf = some (frame, more)) :
    ∃ g u, buf = g ++ START :: u ++ END :: more ∧ START ∉ g ∧ END ∉ u ∧ frame = START :: u ++ [END] := by
  rcases buffer_shape buf with hs | ⟨g, t, rfl, hg, ht⟩ | ⟨g, u, more', rfl, hg, hu⟩
  · rw [extract_noStart hs] at h; cases h
  · rw [extract_noEnd hg ht] at h; cases h
  · rw [extract_frame hg hu, Option.some.injEq, Prod.mk.injEq] at h
    obtain ⟨rfl, rfl⟩ := h
    exact ⟨g, u, rfl, hg, hu, rfl⟩

theorem extract_length {buf frame more : List Byte} (h : extract buf = some (frame, more)) :
    more.length + 2 ≤ buf.length := by
  obtain ⟨g, u, rfl, -⟩ := extract_some h
  simp; omega

/-! ### drain -/

theorem drainN_enough {k : Nat} : ∀ {buf : List Byte}, buf.length ≤ k → drainN k buf = drainN buf.length buf := by
  induction k using Nat.strong_induction_on with
  | _ k ih =>
    intro buf h
    cases hx : extract buf with
    | none => cases k <;> cases buf.length <;> simp [drainN, hx]
    | some fr =>
      obtain ⟨frame, more⟩ := fr
      have hl := extract_length hx
      obtain ⟨k, rfl⟩ : ∃ k', k = k' + 1 := ⟨k - 1, by omega⟩
      obtain ⟨j, hj⟩ : ∃ j, buf.length = j + 1 := ⟨buf.length - 1, by omega⟩
      rw [hj]
      simp only [drainN, hx]
      rw [ih k (by omega) (by omega)]
      rcases Nat.lt_or_ge j (k + 1) with hjk | hjk
      · rw [ih j hjk (by omega)]
      · omega

/-- The loop: stop, or one frame and the loop on what is left. -/
theorem drain_eq (buf : List Byte) : drain buf =
    match extract buf with
    | none => ([], buf)
    | some (frame, more) => (unescape (interior frame) :: (drain more).1, (drain more).2) := by
  cases hx : extract buf with
  | none => unfold drain; cases buf.length <;> simp [drainN, hx]
  | some fr =>
    obtain ⟨frame, more⟩ := fr
    have hl := extract_length hx
    obtain ⟨j, hj⟩ : ∃ j, buf.length = j + 1 := ⟨buf.length - 1, by omega⟩
    unfold drain
    rw [hj]
    simp only [drainN, hx]
    rw [drainN_enough (k := j) (by omega)]

theorem drain_settled {buf : List Byte} (h : Settled buf) : drain buf = ([], buf) := by
  rw [drain_eq, extract_none.mpr h]

theorem drain_frame {g u more : List Byte} (hg : START ∉ g) (hu : END ∉ u) :
    drain (g ++ START :: u ++ END :: more) = (unescape u :: (drain more).1, (drain more).2) := by
  rw [drain_eq, extract_frame hg hu]
  simp only [interior_frame]

/-! ### unescape -/

theorem unescFold_append (u v : List Byte) : unescFold (u ++ v) = v.foldl unescStep (unescFold u) := by
  simp [unescFold, List.foldl_append]

theorem symbols_foldl {u p : List Byte} (h : Symbols u p) (out : List Byte) :
    u.foldl unescStep (out, false) = (out ++ p, false) := by
  induction h generalizing out with
  | nil => simp
  | literal hd _ ih => simp [unescStep, hd, ih]
  | pair _ ih => simp [unescStep, ih]

theorem symbols_or_escape (u : List Byte) :
    (∃ p, Symbols u p) ∨ ∃ v p, Symbols v p ∧ u = v ++ [ESCAPE] := by
  induction h : u.length using Nat.strong_induction_on generalizing u with
  | _ k ih =>
    subst h
    match u with
    | [] => exact .inl ⟨_, .nil⟩
    | [d] =>
      by_cases hd : d = ESCAPE
      · exact .inr ⟨[], [], .nil, by simp [hd]⟩
      · exact .inl ⟨_, .literal hd .nil⟩
    | d :: c :: u =>
      by_cases hd : d = ESCAPE
      · subst hd
        rcases ih u.length (by simp) u rfl with ⟨p, hp⟩ | ⟨v, p, hp, rfl⟩
        · exact .inl ⟨_, .pair hp⟩
        · exact .inr ⟨ESCAPE :: c :: v, _, .pair hp, by simp⟩
      · obtain ⟨p, hp⟩ | ⟨v, p, hp, he⟩ := ih (c :: u).length (by simp) (c :: u) rfl
        · exact .inl ⟨_, .literal hd hp⟩
        · exact .inr ⟨d :: v, _, .literal hd hp, by rw [he]; rfl⟩

theorem unescFold_symbols {u p : List Byte} (h : Symbols u p) : unescFold u = (p, false) := by
  exact symbols_foldl h []

theorem unescFold_escape {v p : List Byte} (h : Symbols v p) : unescFold (v ++ [ESCAPE]) = (p, true) := by
  rw [unescFold_append, unescFold_symbols h]; simp [unescStep]

/-- The unescaper decides exactly what the split into symbols says (R96 to R98, R130). -/
theorem unescape_iff {u : List Byte} {r : DecodeResult} : unescape u = r ↔ FrameResult u r := by
  constructor
  · rintro rfl
    rcases symbols_or_escape u with ⟨p, hp⟩ | ⟨v, p, hp, rfl⟩
    · exact .inl ⟨p, hp, by rw [unescape, unescFold_symbols hp, verdict]⟩
    · exact .inr ⟨v, p, hp, rfl, by rw [unescape, unescFold_escape hp, verdict]⟩
  · rintro (⟨p, hp, rfl⟩ | ⟨v, p, hp, rfl, rfl⟩)
    · rw [unescape, unescFold_symbols hp, verdict]
    · rw [unescape, unescFold_escape hp, verdict]

/-! ### the loop as a relation -/

/-- The loop answers what the relation says, for every buffer. -/
theorem drains_drain (buf : List Byte) : Drains buf (drain buf).1 (drain buf).2 := by
  induction h : buf.length using Nat.strong_induction_on generalizing buf with
  | _ k ih =>
    subst h
    rcases buffer_shape buf with hs | ⟨g, t, rfl, hg, ht⟩ | ⟨g, u, more, rfl, hg, hu⟩
    · rw [drain_settled (.inl hs)]; exact .noStart hs
    · rw [drain_settled (.inr ⟨g, t, rfl, hg, ht⟩)]; exact .noEnd hg ht
    · rw [drain_frame hg hu]
      exact .frame hg hu (unescape_iff.mp rfl) (ih more.length (by simp; omega) more rfl)

/-- The relation determines the answer. -/
theorem drains_iff {buf left : List Byte} {rs : List DecodeResult} :
    Drains buf rs left ↔ drain buf = (rs, left) := by
  constructor
  · intro h
    induction h with
    | noStart h => exact drain_settled (.inl h)
    | noEnd hg ht => exact drain_settled (.inr ⟨_, _, rfl, hg, ht⟩)
    | frame hg hu hr _ ih =>
      rw [drain_frame hg hu, ih, unescape_iff.mpr hr]
  · intro h
    have := drains_drain buf
    rwa [h] at this

/-- What the loop leaves holds no complete frame (R32, R99). -/
theorem drain_left_settled (buf : List Byte) : Settled (drain buf).2 := by
  have h : ∀ {b rs left}, Drains b rs left → Settled left := by
    intro b rs left h
    induction h with
    | noStart h => exact .inl h
    | noEnd hg ht => exact .inr ⟨_, _, rfl, hg, ht⟩
    | frame _ _ _ _ ih => exact ih
  exact h (drains_drain buf)

end Sys2Proof.Machine
end

