-- ==== Sys2Proof/Laws/State.lean ====
section
/-!
SUPPORT. What each update of the state does to each field of it: one lemma per field per update, so that no proof
unfolds a record update.
-/

namespace Sys2Proof.Machine

section
variable (s : State) (n : RxId) (x : Reassembler)

@[simp] theorem State.setRx_cfg : (s.setRx n x).cfg = s.cfg := rfl
@[simp] theorem State.setRx_payloadOpen : (s.setRx n x).payloadOpen = s.payloadOpen := rfl
@[simp] theorem State.setRx_pending : (s.setRx n x).pending = s.pending := rfl
@[simp] theorem State.setRx_encOut : (s.setRx n x).encOut = s.encOut := rfl
@[simp] theorem State.setRx_rxOut : (s.setRx n x).rxOut = s.rxOut := rfl
@[simp] theorem State.setRx_draws : (s.setRx n x).draws = s.draws := rfl
@[simp] theorem State.setRx_rx_same : (s.setRx n x).rx n = x := bankGet_put_same _ _ _
@[simp] theorem State.setRx_rx_other {m : RxId} (h : m ≠ n) : (s.setRx n x).rx m = s.rx m :=
  bankGet_put_other _ _ h

end

section
variable (s : State) (n : RxId) (b : List Byte)

@[simp] theorem State.setBuf_cfg : (s.setBuf n b).cfg = s.cfg := rfl
@[simp] theorem State.setBuf_payloadOpen : (s.setBuf n b).payloadOpen = s.payloadOpen := rfl
@[simp] theorem State.setBuf_pending : (s.setBuf n b).pending = s.pending := rfl
@[simp] theorem State.setBuf_encOut : (s.setBuf n b).encOut = s.encOut := rfl
@[simp] theorem State.setBuf_rxOut : (s.setBuf n b).rxOut = s.rxOut := rfl
@[simp] theorem State.setBuf_draws : (s.setBuf n b).draws = s.draws := rfl
@[simp] theorem State.setBuf_rx_same : (s.setBuf n b).rx n = { s.rx n with rxbuf := b } := bankGet_put_same _ _ _
@[simp] theorem State.setBuf_rx_other {m : RxId} (h : m ≠ n) : (s.setBuf n b).rx m = s.rx m :=
  bankGet_put_other _ _ h

end

section
variable (s : State) (n : RxId) (f : Option Feed)

@[simp] theorem State.setFeed_cfg : (s.setFeed n f).cfg = s.cfg := rfl
@[simp] theorem State.setFeed_payloadOpen : (s.setFeed n f).payloadOpen = s.payloadOpen := rfl
@[simp] theorem State.setFeed_pending : (s.setFeed n f).pending = s.pending := rfl
@[simp] theorem State.setFeed_encOut : (s.setFeed n f).encOut = s.encOut := rfl
@[simp] theorem State.setFeed_rxOut : (s.setFeed n f).rxOut = s.rxOut := rfl
@[simp] theorem State.setFeed_draws : (s.setFeed n f).draws = s.draws := rfl
@[simp] theorem State.setFeed_rx_same : (s.setFeed n f).rx n = { s.rx n with feed := f } := bankGet_put_same _ _ _
@[simp] theorem State.setFeed_rx_other {m : RxId} (h : m ≠ n) : (s.setFeed n f).rx m = s.rx m :=
  bankGet_put_other _ _ h

end

section
variable (s : State) (n : RxId) (f : Feed) (p : Pass)

@[simp] theorem State.setPass_cfg : (s.setPass n f p).cfg = s.cfg := rfl
@[simp] theorem State.setPass_payloadOpen : (s.setPass n f p).payloadOpen = s.payloadOpen := rfl
@[simp] theorem State.setPass_pending : (s.setPass n f p).pending = s.pending := rfl
@[simp] theorem State.setPass_encOut : (s.setPass n f p).encOut = s.encOut := rfl
@[simp] theorem State.setPass_rxOut : (s.setPass n f p).rxOut = s.rxOut := rfl
@[simp] theorem State.setPass_draws : (s.setPass n f p).draws = s.draws := rfl
@[simp] theorem State.setPass_rx_same : (s.setPass n f p).rx n = { s.rx n with feed := some { f with pass := p } } := bankGet_put_same _ _ _
@[simp] theorem State.setPass_rx_other {m : RxId} (h : m ≠ n) : (s.setPass n f p).rx m = s.rx m :=
  bankGet_put_other _ _ h

end

section
variable (s : State) (n : RxId) (f : Feed) (r : DecodeResult)

@[simp] theorem State.emitResult_cfg : (s.emitResult n f r).cfg = s.cfg := rfl
@[simp] theorem State.emitResult_payloadOpen : (s.emitResult n f r).payloadOpen = s.payloadOpen := rfl
@[simp] theorem State.emitResult_pending : (s.emitResult n f r).pending = s.pending := rfl
@[simp] theorem State.emitResult_encOut : (s.emitResult n f r).encOut = s.encOut := rfl
@[simp] theorem State.emitResult_rxOut : (s.emitResult n f r).rxOut = s.rxOut := rfl
@[simp] theorem State.emitResult_draws : (s.emitResult n f r).draws = s.draws := rfl
@[simp] theorem State.emitResult_rx_same : (s.emitResult n f r).rx n = { s.rx n with feed := some { results := f.results ++ [r], pass := .scanStart 0 } } := bankGet_put_same _ _ _
@[simp] theorem State.emitResult_rx_other {m : RxId} (h : m ≠ n) : (s.emitResult n f r).rx m = s.rx m :=
  bankGet_put_other _ _ h

end

section
variable (s : State) (n : RxId) (f : Feed)

@[simp] theorem State.raiseMalformed_cfg : (s.raiseMalformed n f).cfg = s.cfg := rfl
@[simp] theorem State.raiseMalformed_payloadOpen : (s.raiseMalformed n f).payloadOpen = s.payloadOpen := rfl
@[simp] theorem State.raiseMalformed_pending : (s.raiseMalformed n f).pending = s.pending := rfl
@[simp] theorem State.raiseMalformed_encOut : (s.raiseMalformed n f).encOut = s.encOut := rfl
@[simp] theorem State.raiseMalformed_rxOut : (s.raiseMalformed n f).rxOut = s.rxOut := rfl
@[simp] theorem State.raiseMalformed_draws : (s.raiseMalformed n f).draws = s.draws := rfl
@[simp] theorem State.raiseMalformed_rx_same : (s.raiseMalformed n f).rx n = { s.rx n with feed := some { results := f.results ++ [.err .malformedFrame], pass := .scanStart 0 } } := bankGet_put_same _ _ _
@[simp] theorem State.raiseMalformed_rx_other {m : RxId} (h : m ≠ n) : (s.raiseMalformed n f).rx m = s.rx m :=
  bankGet_put_other _ _ h

end

section
variable (s : State) (n : RxId)

@[simp] theorem State.construct_cfg : (s.construct n).cfg = s.cfg := rfl
@[simp] theorem State.construct_payloadOpen : (s.construct n).payloadOpen = s.payloadOpen := rfl
@[simp] theorem State.construct_pending : (s.construct n).pending = s.pending := rfl
@[simp] theorem State.construct_encOut : (s.construct n).encOut = s.encOut := rfl
@[simp] theorem State.construct_rxOut : (s.construct n).rxOut = s.rxOut := rfl
@[simp] theorem State.construct_draws : (s.construct n).draws = s.draws := rfl
@[simp] theorem State.construct_rx_same : (s.construct n).rx n = Reassembler.fresh := bankGet_put_same _ _ _
@[simp] theorem State.construct_rx_other {m : RxId} (h : m ≠ n) : (s.construct n).rx m = s.rx m :=
  bankGet_put_other _ _ h

end

section
variable (s : State) (n : RxId) (r : Reply)

@[simp] theorem State.deliver_cfg : (s.deliver n r).cfg = s.cfg := rfl
@[simp] theorem State.deliver_payloadOpen : (s.deliver n r).payloadOpen = s.payloadOpen := rfl
@[simp] theorem State.deliver_pending : (s.deliver n r).pending = s.pending := rfl
@[simp] theorem State.deliver_encOut : (s.deliver n r).encOut = s.encOut := rfl
@[simp] theorem State.deliver_rxOut : (s.deliver n r).rxOut = s.rxOut ++ [{ rx := n, reply := r }] := rfl
@[simp] theorem State.deliver_draws : (s.deliver n r).draws = s.draws := rfl
@[simp] theorem State.deliver_rx (m : RxId) : (s.deliver n r).rx m = s.rx m := rfl
@[simp] theorem State.deliver_rxs : (s.deliver n r).rxs = s.rxs := rfl

end

section
variable (s : State) (n : RxId)

@[simp] theorem State.takeOverflow_cfg : (s.takeOverflow n).cfg = s.cfg := rfl
@[simp] theorem State.takeOverflow_payloadOpen : (s.takeOverflow n).payloadOpen = s.payloadOpen := rfl
@[simp] theorem State.takeOverflow_pending : (s.takeOverflow n).pending = s.pending := rfl
@[simp] theorem State.takeOverflow_encOut : (s.takeOverflow n).encOut = s.encOut := rfl
@[simp] theorem State.takeOverflow_rxOut : (s.takeOverflow n).rxOut = s.rxOut ++ [{ rx := n, reply := .bufferOverflow }] := rfl
@[simp] theorem State.takeOverflow_draws : (s.takeOverflow n).draws = s.draws + 1 := rfl
@[simp] theorem State.takeOverflow_rx_same : (s.takeOverflow n).rx n = { fault := true, rxbuf := Config.freeBuf s.draws, feed := none } := bankGet_put_same _ _ _
@[simp] theorem State.takeOverflow_rx_other {m : RxId} (h : m ≠ n) : (s.takeOverflow n).rx m = s.rx m :=
  bankGet_put_other _ _ h

end

section
variable (s : State) (b : List Byte)

@[simp] theorem State.emit_cfg : (s.emit b).cfg = s.cfg := rfl
@[simp] theorem State.emit_payloadOpen : (s.emit b).payloadOpen = s.payloadOpen := rfl
@[simp] theorem State.emit_pending : (s.emit b).pending = s.pending := rfl
@[simp] theorem State.emit_encOut : (s.emit b).encOut = s.encOut ++ [b] := rfl
@[simp] theorem State.emit_rxOut : (s.emit b).rxOut = s.rxOut := rfl
@[simp] theorem State.emit_draws : (s.emit b).draws = s.draws := rfl
@[simp] theorem State.emit_rx (m : RxId) : (s.emit b).rx m = s.rx m := rfl
@[simp] theorem State.emit_rxs : (s.emit b).rxs = s.rxs := rfl

end

section
variable (s : State) (b : Bool)

@[simp] theorem State.setPayloadOpen_cfg : (s.setPayloadOpen b).cfg = s.cfg := rfl
@[simp] theorem State.setPayloadOpen_payloadOpen : (s.setPayloadOpen b).payloadOpen = b := rfl
@[simp] theorem State.setPayloadOpen_pending : (s.setPayloadOpen b).pending = s.pending := rfl
@[simp] theorem State.setPayloadOpen_encOut : (s.setPayloadOpen b).encOut = s.encOut := rfl
@[simp] theorem State.setPayloadOpen_rxOut : (s.setPayloadOpen b).rxOut = s.rxOut := rfl
@[simp] theorem State.setPayloadOpen_draws : (s.setPayloadOpen b).draws = s.draws := rfl
@[simp] theorem State.setPayloadOpen_rx (m : RxId) : (s.setPayloadOpen b).rx m = s.rx m := rfl
@[simp] theorem State.setPayloadOpen_rxs : (s.setPayloadOpen b).rxs = s.rxs := rfl

end

section
variable (s : State) (r : Request)

@[simp] theorem State.ask_cfg : (s.ask r).cfg = s.cfg := rfl
@[simp] theorem State.ask_payloadOpen : (s.ask r).payloadOpen = s.payloadOpen := rfl
@[simp] theorem State.ask_pending : (s.ask r).pending = r :: s.pending := rfl
@[simp] theorem State.ask_encOut : (s.ask r).encOut = s.encOut := rfl
@[simp] theorem State.ask_rxOut : (s.ask r).rxOut = s.rxOut := rfl
@[simp] theorem State.ask_draws : (s.ask r).draws = s.draws := rfl
@[simp] theorem State.ask_rx (m : RxId) : (s.ask r).rx m = s.rx m := rfl
@[simp] theorem State.ask_rxs : (s.ask r).rxs = s.rxs := rfl

end

@[simp] theorem State.reset_rx (n : RxId) : State.reset.rx n = Reassembler.fresh := by cases n <;> rfl
@[simp] theorem State.reset_cfg : State.reset.cfg = { bufCap := none } := rfl
@[simp] theorem State.reset_payloadOpen : State.reset.payloadOpen = false := rfl
@[simp] theorem State.reset_pending : State.reset.pending = [] := rfl
@[simp] theorem State.reset_encOut : State.reset.encOut = [] := rfl
@[simp] theorem State.reset_rxOut : State.reset.rxOut = [] := rfl
@[simp] theorem State.reset_draws : State.reset.draws = 0 := rfl

/-- Two updates of one Reassembler are the second one. -/
theorem State.setRx_setRx (s : State) (n : RxId) (x y : Reassembler) : (s.setRx n x).setRx n y = s.setRx n y := by
  simp only [State.setRx, bankPut_put]

/-- Writing back what a Reassembler that is not just constructed holds changes nothing. -/
theorem State.setRx_self (s : State) (n : RxId) (h : s.rx n ≠ Reassembler.fresh) : s.setRx n (s.rx n) = s := by
  simp only [State.setRx, State.rx] at h ⊢
  rw [bankPut_get _ _ h]

end Sys2Proof.Machine
end

