-- ==== Sys2Proof/Laws/Ops.lean ====
section
/-!
SUPPORT. One lemma per shared operation of a meaning: everything it can answer.
-/

namespace Sys2Proof.Machine

theorem whenIdle_ready {n : RxId} {s : State} (h : Ready n s) (go : Result) : whenIdle n s go = go := by
  simp [whenIdle, h.1, h.2]

/-- If an operation of an idle Reassembler answers a next state, either the fault was returned again or it went on. -/
theorem whenIdle_next {n : RxId} {s t : State} {go : Result} (h : whenIdle n s go = .next t) :
    ((s.rx n).fault = true ∧ t = s.deliver n .bufferOverflow) ∨ (Ready n s ∧ go = .next t) := by
  unfold whenIdle at h
  split at h
  · rename_i hf
    exact .inl ⟨hf, by simpa using h.symm⟩
  · rename_i hf
    split at h
    · cases h
    · rename_i hn
      exact .inr ⟨⟨by simpa using hf, hn⟩, h⟩

theorem whenFeeding_some {n : RxId} {s : State} {f : Feed} (h : (s.rx n).feed = some f) (go : Feed → Result) :
    whenFeeding n s go = go f := by
  simp [whenFeeding, h]

/-- If a later step of FEED answers a next state, a FEED is in progress and the step went on with it. -/
theorem whenFeeding_next {n : RxId} {s t : State} {go : Feed → Result} (h : whenFeeding n s go = .next t) :
    ∃ f, (s.rx n).feed = some f ∧ go f = .next t := by
  unfold whenFeeding at h
  split at h
  · cases h
  · exact ⟨_, ‹_›, h⟩

theorem lookAt_some {n : RxId} {pos : Nat} {s : State} {b : Byte} (h : (s.rx n).rxbuf[pos]? = some b)
    (go : Byte → Result) : lookAt n pos s go = go b := by
  simp [lookAt, readByte, h]

/-- If looking at a byte answers a next state, the byte is there. -/
theorem lookAt_next {n : RxId} {pos : Nat} {s t : State} {go : Byte → Result} (h : lookAt n pos s go = .next t) :
    ∃ b, (s.rx n).rxbuf[pos]? = some b ∧ go b = .next t := by
  unfold lookAt readByte at h
  split at h
  · cases h
  · exact ⟨_, ‹_›, h⟩

/-- FEED of a chunk delivers results and leaves a buffer, or overflows. -/
theorem feedChunk_cases (n : RxId) (c : List Byte) (s : State) :
    (feedBuf s.cfg.bufCap (s.rx n).rxbuf c = none ∧ feedChunk n c s = s.takeOverflow n) ∨
      ∃ rs left, feedBuf s.cfg.bufCap (s.rx n).rxbuf c = some (rs, left) ∧
        feedChunk n c s = (s.setBuf n left).deliver n (.results rs) := by
  unfold feedChunk
  split
  · exact .inl ⟨‹_›, rfl⟩
  · exact .inr ⟨_, _, ‹_›, rfl⟩

/-- Holding one more byte keeps it, or overflows. -/
theorem holdByte_cases (n : RxId) (b : Byte) (s : State) :
    (overCap s.cfg.bufCap ((s.rx n).rxbuf ++ [b]) = true ∧ holdByte n b s = s.takeOverflow n) ∨
      (overCap s.cfg.bufCap ((s.rx n).rxbuf ++ [b]) = false ∧
        holdByte n b s = (s.setBuf n ((s.rx n).rxbuf ++ [b])).deliver n (.results [])) := by
  unfold holdByte
  split
  · exact .inl ⟨‹_›, rfl⟩
  · rename_i h
    exact .inr ⟨by simpa using h, rfl⟩

end Sys2Proof.Machine
end

