-- ==== Sys2Proof/Laws/PerInstr.lean ====
section
/-!
SUPPORT. The family TableWord: the wire word of a well-formed instruction lies in its row of the opcode table: it has
the row's width, agrees with match under mask, and is not left to a more specific row. Where the table has no encoding
there is no word.
-/

namespace Sys2Proof.Laws.TableWord

/-- The statement for one instruction. -/
def Statement (i : Instr) : Prop :=
  match encode i, tableRow i with
  | none, none => True
  | some (_, bs), some r =>
    WellFormed i = true → bs.length * 8 = r.width ∧ r.accepts (wordOfBytes bs) = true
  | _, _ => False

/-- A one-byte row with mask 0 and an "except" list. -/
theorem byte_row (d : Byte) (l : List Nat) (h : l.contains d.toNat = false) :
    (TableRow.mk 8 0x00 0x00 l).accepts (wordOfBytes [d]) = true := by
  have := d.isLt
  simp_all [TableRow.accepts, wordOfBytes]

theorem encode (p : List Byte) : Statement (.encode p) := trivial
theorem feed (n : RxId) (c : List Byte) : Statement (.feed n c) := trivial
theorem reset (n : RxId) : Statement (.reset n) := trivial
theorem decode (n : RxId) (x : List Byte) : Statement (.decode n x) := trivial
theorem encStart : Statement .encStart := fun _ => by decide
theorem encPlain (d : Byte) : Statement (.encPlain d) := fun h =>
  ⟨rfl, byte_row d _ (by revert d; decide)⟩
theorem encStuffStart : Statement .encStuffStart := fun _ => by decide
theorem encStuffEnd : Statement .encStuffEnd := fun _ => by decide
theorem encStuffEscape : Statement .encStuffEscape := fun _ => by decide
theorem encEnd : Statement .encEnd := fun _ => by decide
theorem rxAppend (n : RxId) (c : List Byte) : Statement (.rxAppend n c) := trivial
theorem rxScanStart (n : RxId) : Statement (.rxScanStart n) := trivial
theorem rxScanEnd (n : RxId) : Statement (.rxScanEnd n) := trivial
theorem rxExtract (n : RxId) : Statement (.rxExtract n) := trivial
theorem rxUnescape (n : RxId) : Statement (.rxUnescape n) := trivial
theorem rxEmitErr (n : RxId) : Statement (.rxEmitErr n) := trivial
theorem rxEmitOk (n : RxId) : Statement (.rxEmitOk n) := trivial
theorem rxReturn (n : RxId) : Statement (.rxReturn n) := trivial
theorem scanStart (n : RxId) : Statement (.scanStart n) := fun _ => by decide
theorem scanSkip (n : RxId) (b : Byte) : Statement (.scanSkip n b) := fun h =>
  ⟨rfl, byte_row b _ (by revert b; simp only [WellFormed]; decide)⟩
theorem scanEnd (n : RxId) : Statement (.scanEnd n) := fun _ => by decide
theorem scanBody (n : RxId) (b : Byte) : Statement (.scanBody n b) := fun h =>
  ⟨rfl, byte_row b _ (by revert b; simp only [WellFormed]; decide)⟩
theorem unescEscape (n : RxId) : Statement (.unescEscape n) := fun _ => by decide
theorem unescLiteral (n : RxId) (b : Byte) : Statement (.unescLiteral n b) := fun h =>
  ⟨rfl, byte_row b _ (by revert b; simp only [WellFormed]; decide)⟩
theorem unescComplement (n : RxId) (c : Byte) : Statement (.unescComplement n c) := fun _ => ⟨rfl, byte_row c _ rfl⟩
theorem pair (n : RxId) (c : Byte) : Statement (.pair n c) := fun h =>
  ⟨rfl, by revert c; simp only [WellFormed]; decide⟩
theorem pairIllegal (n : RxId) : Statement (.pairIllegal n) := fun _ => by decide
theorem byteHuntSkip (n : RxId) (b : Byte) : Statement (.byteHuntSkip n b) := fun h =>
  ⟨rfl, byte_row b _ (by revert b; simp only [WellFormed]; decide)⟩
theorem byteHuntStart (n : RxId) : Statement (.byteHuntStart n) := fun _ => by decide
theorem byteCollectBody (n : RxId) (b : Byte) : Statement (.byteCollectBody n b) := fun h =>
  ⟨rfl, byte_row b _ (by revert b; simp only [WellFormed]; decide)⟩
theorem byteCollectEnd (n : RxId) : Statement (.byteCollectEnd n) := fun _ => by decide

end Sys2Proof.Laws.TableWord
end

