-- ==== Sys2Proof/Tests/Slice0.lean ====
section
/-!
SUPPORT. Tests on small states, expected results from spec/95_test_vectors.md and spec/30_encoding.md; and for every
statement with hypotheses a witness that something concrete meets them together.
-/

namespace Sys2Proof.Tests

open Sys2Proof Sys2Proof.Machine

/-! ### Small states -/

/-- Reassembler 0 between operations, holding `buf`, under a capacity. -/
def resting (cap : Option Nat) (buf : List Byte) : State :=
  { State.reset with cfg := { bufCap := cap } }.setRx 0 { fault := false, rxbuf := buf, feed := none }

/-- Reassembler 0 with a FEED in progress. -/
def feeding (buf : List Byte) (results : List DecodeResult) (pass : Pass) : State :=
  State.reset.setRx 0 { fault := false, rxbuf := buf, feed := some { results := results, pass := pass } }

/-- Reassembler 0 after BufferOverflow. -/
def faulted : State :=
  { State.reset with cfg := { bufCap := some 4 } }.setRx 0 { fault := true, rxbuf := [0xFF], feed := none }

/-- A state with a payload open, or not. -/
def withPayload (isOpen : Bool) : State :=
  { State.reset with payloadOpen := isOpen }

/-- A state with one request. -/
def asking (s : State) (r : Request) : State :=
  { s with pending := [r] }

/-- One value of the next state, if there is one. -/
def sees {α : Type} (r : Result) (f : State → α) : Option α :=
  match r with
  | .next t => some (f t)
  | .fault _ | .refused _ => none

/-- What FEED of a chunk hands over, and the buffer and FAULT after it. -/
def feedView (s : State) (c : List Byte) : Option (List Reply × List Byte × Bool) :=
  sees (exec (.feed 0 c) s) fun t => (t.rxOut.map (·.reply), (t.rx 0).rxbuf, (t.rx 0).fault)

/-! ### Ill-formed instructions are refused -/

theorem test_wellFormed_encPlain :
    WellFormed (.encPlain 0x01) = false ∧ WellFormed (.encPlain 0x1A) = false ∧ WellFormed (.encPlain 0x1B) = false ∧
      WellFormed (.encPlain 0xFE) = true := by decide
theorem test_wellFormed_scanSkip : WellFormed (.scanSkip 0 0x01) = false ∧ WellFormed (.scanSkip 0 0x1A) = true := by
  decide
theorem test_wellFormed_scanBody : WellFormed (.scanBody 0 0x1A) = false ∧ WellFormed (.scanBody 0 0x01) = true := by
  decide
theorem test_wellFormed_unescLiteral :
    WellFormed (.unescLiteral 0 0x1B) = false ∧ WellFormed (.unescLiteral 0 0xFE) = true := by decide
theorem test_wellFormed_pair : WellFormed (.pair 0 0x1A) = false ∧ WellFormed (.pair 0 0x1B) = true := by decide
theorem test_wellFormed_byteHuntSkip :
    WellFormed (.byteHuntSkip 0 0x01) = false ∧ WellFormed (.byteHuntSkip 0 0x1B) = true := by decide
theorem test_wellFormed_byteCollectBody :
    WellFormed (.byteCollectBody 0 0x1A) = false ∧ WellFormed (.byteCollectBody 0 0x01) = true := by decide
theorem test_step_refuses_illFormed :
    step (asking (resting none [0x41]) (.call (.byteHuntSkip 0 0x01))) = .refused .illFormed := rfl

/-! ### Words written out from the encodings of spec/30_encoding.md and the opcode table -/

/-- R61, R66, rows ENC. -/
theorem test_decode_encoder :
    decode .packetFirst 0 [0x01] = .ok (.encStart, []) ∧ decode .payload 0 [0x00] = .ok (.encPlain 0x00, []) ∧
      decode .payload 0 [0x01] = .ok (.encStuffStart, []) ∧ decode .payload 0 [0x1A] = .ok (.encStuffEnd, []) ∧
      decode .payload 0 [0x1B] = .ok (.encStuffEscape, []) ∧ decode .packetLast 0 [0x1A] = .ok (.encEnd, []) :=
  ⟨rfl, rfl, rfl, rfl, rfl, rfl⟩
/-- R67 contexts A and B, rows SCAN. -/
theorem test_decode_scan :
    decode .lookStart 2 [0x01, 0x41] = .ok (.scanStart 2, [0x41]) ∧
      decode .lookStart 2 [0x1B] = .ok (.scanSkip 2 0x1B, []) ∧ decode .lookEnd 2 [0x1A] = .ok (.scanEnd 2, []) ∧
      decode .lookEnd 2 [0x1B] = .ok (.scanBody 2 0x1B, []) :=
  ⟨rfl, rfl, rfl, rfl⟩
/-- R67 contexts C and D, rows UNESC. -/
theorem test_decode_unescape :
    decode .clear 0 [0x1B] = .ok (.unescEscape 0, []) ∧ decode .clear 0 [0xFE] = .ok (.unescLiteral 0 0xFE, []) ∧
      decode .escaped 0 [0xFE] = .ok (.unescComplement 0 0xFE, []) ∧
      decode .escaped 0 [0x1B] = .ok (.unescComplement 0 0x1B, []) :=
  ⟨rfl, rfl, rfl, rfl⟩
/-- R63, R70, the two-byte rows. -/
theorem test_decode_pair :
    decode .symbol 0 [0x1B, 0xFE] = .ok (.pair 0 0xFE, []) ∧ decode .symbol 0 [0x1B, 0x1B] = .ok (.pair 0 0x1B, []) ∧
      decode .symbol 0 [0x1B, 0x1A] = .ok (.pairIllegal 0, []) ∧ decode .symbol 0 [0x1B] = .error .halfPair :=
  ⟨rfl, rfl, rfl, rfl⟩
/-- R113 to R116, rows BYTE. -/
theorem test_decode_byte :
    decode .hunt 0 [0x01] = .ok (.byteHuntStart 0, []) ∧ decode .hunt 0 [0x1A] = .ok (.byteHuntSkip 0 0x1A, []) ∧
      decode .collect 0 [0x1A] = .ok (.byteCollectEnd 0, []) ∧
      decode .collect 0 [0x01] = .ok (.byteCollectBody 0 0x01, []) :=
  ⟨rfl, rfl, rfl, rfl⟩
/-- R61: a byte that is no marker does not open or close a packet. -/
theorem test_decode_notMarkers :
    decode .packetFirst 0 [0x1A] = .error (.notStart 0x1A) ∧ decode .packetLast 0 [0x01] = .error (.notEnd 0x01) ∧
      decode .clear 0 [] = .error .noByte :=
  ⟨rfl, rfl, rfl⟩
/-- The table's own numbering: 8 bits, and the first byte of a pair in bits 15..8. -/
theorem test_decodeTableWord :
    decodeTableWord 8 0x41 = some (.encPlain 0x41) ∧ decodeTableWord 8 0x1A = some .encStuffEnd ∧
      decodeTableWord 16 0x1B00 = some (.pair 0 0x00) ∧ decodeTableWord 16 0x1B1A = some (.pairIllegal 0) ∧
      decodeTableWord 24 0x000001 = none := by decide
/-- A placed word is what the next step runs. -/
theorem test_withFetchWord :
    sees (step (State.reset.withFetchWord 8 0x1B)) (·.encOut) = some [[0x1B, 0xE4]] ∧
      sees (step (State.reset.withFetchWord 16 0x1BFE)) (fun t => (t.rx 0).feed) =
        some (some ⟨[], .unescape [0x01, 0x1B, 0xFE, 0x1A] [] false [0x01]⟩) ∧
      sees (step (State.reset.withFetchWord 16 0x1B1A)) (fun t => (t.rx 0).feed) =
        some (some ⟨[.err .malformedFrame], .scanStart 0⟩) := by decide

/-! ### The Encoder: vectors E and K, section 2.6 -/

theorem test_encode_S1_S2 :
    exec (.encode []) State.reset = .next { State.reset with encOut := [[0x01, 0x1A]] } ∧
      exec (.encode [0x01, 0x1A, 0x1B]) State.reset =
        .next { State.reset with encOut := [[0x01, 0x1B, 0xFE, 0x1B, 0xE5, 0x1B, 0xE4, 0x1A]] } := ⟨rfl, rfl⟩
theorem test_encode_E14_E15_E17 :
    packet [0x1B, 0xFE] = [0x01, 0x1B, 0xE4, 0xFE, 0x1A] ∧ packet [0xFE, 0x01] = [0x01, 0xFE, 0x1B, 0xFE, 0x1A] ∧
      packet [0x02, 0x19, 0x1C] = [0x01, 0x02, 0x19, 0x1C, 0x1A] := by decide
theorem test_encStart : sees (exec .encStart (withPayload false)) (fun t => (t.encOut, t.payloadOpen)) =
    some ([[0x01]], true) := by decide
theorem test_encPlain_K3v_K11v : sees (exec (.encPlain 0x02) (withPayload true)) (·.encOut) = some [[0x02]] ∧
    sees (exec (.encPlain 0xFE) (withPayload true)) (·.encOut) = some [[0xFE]] := by decide
theorem test_encStuff_K2v_K5v_K6v :
    sees (exec .encStuffStart (withPayload true)) (·.encOut) = some [[0x1B, 0xFE]] ∧
      sees (exec .encStuffEnd (withPayload true)) (·.encOut) = some [[0x1B, 0xE5]] ∧
      sees (exec .encStuffEscape (withPayload true)) (·.encOut) = some [[0x1B, 0xE4]] := by decide
theorem test_encEnd : sees (exec .encEnd (withPayload true)) (fun t => (t.encOut, t.payloadOpen)) =
    some ([[0x1A]], false) := by decide

/-! ### FEED, RESET, decode: vectors X, F, Q, B -/

/-- F2, F9, F11. -/
theorem test_feed_F2_F9_F11 :
    feedView State.reset [0x41, 0x42] = some ([.results []], [0x41, 0x42], false) ∧
      feedView State.reset [0x01, 0x1B, 0x1A] = some ([.results [.err .malformedFrame]], [], false) ∧
      feedView State.reset [0x1A, 0x01, 0x41, 0x1A] = some ([.results [.ok [0x41]]], [], false) := by decide
/-- F24, F22 and F16. -/
theorem test_feed_F24_F22_F16 :
    feedView State.reset [0x01, 0x41, 0x1A, 0x01, 0x1B, 0x1A, 0x01, 0x42, 0x1A] =
        some ([.results [.ok [0x41], .err .malformedFrame, .ok [0x42]]], [], false) ∧
      feedView State.reset [0x01, 0x1B, 0x1A, 0x41, 0x1A] =
        some ([.results [.err .malformedFrame]], [0x41, 0x1A], false) ∧
      feedView State.reset [0x01, 0x1A, 0x1A] = some ([.results [.ok []]], [0x1A], false) := by decide
/-- Q1, Q2: a split after an ESCAPE. -/
theorem test_feed_Q1_Q2 :
    feedView (resting none [0x01, 0x1B]) [0xFE, 0x1A] = some ([.results [.ok [0x01]]], [], false) ∧
      feedView (resting none [0x01, 0x1B]) [0x1A] = some ([.results [.err .malformedFrame]], [], false) := by decide
/-- B1, B4, B8: traffic above the capacity, occupancy within it. -/
theorem test_feed_B1_B4_B8 :
    feedView (resting (some 4) []) [0xFF, 0xFF, 0x01, 0x41, 0x1A] = some ([.results [.ok [0x41]]], [], false) ∧
      feedView (resting (some 4) []) [0x01, 0x41, 0x42, 0x43, 0x1A, 0x01, 0x44, 0x1A] =
        some ([.results [.ok [0x41, 0x42, 0x43], .ok [0x44]]], [], false) ∧
      feedView (resting (some 1) []) [0x01, 0x1A, 0x01, 0x1A] = some ([.results [.ok [], .ok []]], [], false) := by
  decide
/-- B2, B5, B6, B10: the fault in place of any results. -/
theorem test_feed_B2_B5_B6_B10 :
    (∀ x ∈ [(4, [0xFF, 0xFF, 0x01, 0x41, 0x42, 0x1A]), (4, [0x01, 0x41, 0x42, 0x43, 0x44, 0x1A]), (0, [0x01]),
        (2, [0x01, 0x1B, 0xFE, 0x1A])],
      sees (exec (.feed 0 x.2) (resting (some x.1) [])) (fun t => ((t.rx 0).fault, t.rxOut)) =
        some (true, [⟨0, .bufferOverflow⟩])) := by decide
/-- X7 to X13: interiors. -/
theorem test_unescape_X :
    unescape [0x41, 0x1B] = .err .malformedFrame ∧ unescape [0x1B, 0x1B] = .ok [0xE4] ∧
      unescape [0x1B, 0x1B, 0x1B] = .err .malformedFrame ∧ unescape [0x1B, 0x1B, 0x41] = .ok [0xE4, 0x41] ∧
      unescape [0x1B, 0x01] = .ok [0xFE] ∧ unescape [0x41, 0x01, 0x42] = .ok [0x41, 0x01, 0x42] := by decide
/-- Q7 and B12: RESET drops what was held and clears FAULT. -/
theorem test_reset_Q7_B12 :
    sees (exec (.reset 0) (resting none [0x01, 0x41])) (fun t => (t.rx 0, t.rxOut)) = some (Reassembler.fresh, []) ∧
      sees (exec (.reset 0) faulted) (fun t => (t.rx 0, t.rxOut)) = some (Reassembler.fresh, []) := by decide
/-- R74: what was held before does not count. -/
theorem test_decode_fresh :
    sees (exec (.decode 0 [0x01, 0x1B, 0xE5, 0x1A]) (resting none [0x01, 0x77])) (fun t => (t.rx 0, t.rxOut)) =
      some (Reassembler.fresh, [⟨0, .results [.ok [0x1A]]⟩]) := by decide

/-! ### The named steps: program P3, and the noise of P2 -/

theorem test_rxAppend : sees (exec (.rxAppend 0 [0x41, 0x1A]) (resting none [0x01])) (·.rx 0) =
    some ⟨false, [0x01, 0x41, 0x1A], some ⟨[], .scanStart 0⟩⟩ := by decide
theorem test_rxScanStart_P2 : sees (exec (.rxScanStart 0) (feeding [0xFF, 0x1A, 0x01, 0x10] [] (.scanStart 0)))
    (fun t => (t.rx 0).feed) = some (some ⟨[], .scanEnd 2 3⟩) := by decide
theorem test_rxScanEnd_P2 :
    sees (exec (.rxScanEnd 0) (feeding [0xFF, 0x1A, 0x01, 0x10, 0x1A] [] (.scanEnd 2 3))) (fun t => (t.rx 0).feed) =
      some (some ⟨[], .found 2 4⟩) ∧
    sees (exec (.rxScanEnd 0) (feeding [0xFF, 0x1A, 0x01, 0x10] [] (.scanEnd 2 3))) (fun t => (t.rx 0).feed) =
      some (some ⟨[], .stopped⟩) := by decide
theorem test_rxExtract_P3 :
    sees (exec (.rxExtract 0) (feeding [0xFF, 0x01, 0x1B, 0x1A, 0x01, 0x42, 0x1A] [.ok [0x41]] (.found 1 3)))
      (·.rx 0) = some ⟨false, [0x01, 0x42, 0x1A],
        some ⟨[.ok [0x41]], .unescape [0x01, 0x1B, 0x1A] [0x1B] false []⟩⟩ := by decide
theorem test_rxUnescape_X11 :
    sees (exec (.rxUnescape 0)
      (feeding [] [] (.unescape [0x01, 0x1B, 0x1B, 0x41, 0x1A] [0x1B, 0x1B, 0x41] false []))) (fun t => (t.rx 0).feed) =
      some (some ⟨[], .unescape [0x01, 0x1B, 0x1B, 0x41, 0x1A] [] false [0xE4, 0x41]⟩) := by decide
theorem test_rxEmitErr_X7 :
    sees (exec (.rxEmitErr 0) (feeding [0x01] [.ok []] (.unescape [0x01, 0x41, 0x1B, 0x1A] [] true [0x41])))
      (·.rx 0) = some ⟨false, [0x01], some ⟨[.ok [], .err .malformedFrame], .scanStart 0⟩⟩ := by decide
theorem test_rxEmitOk_X2 :
    sees (exec (.rxEmitOk 0) (feeding [0x01] [.ok []] (.unescape [0x01, 0x41, 0x1A] [] false [0x41])))
      (·.rx 0) = some ⟨false, [0x01], some ⟨[.ok [], .ok [0x41]], .scanStart 0⟩⟩ := by decide
theorem test_rxReturn : sees (exec (.rxReturn 0) (feeding [0x42] [.ok []] .stopped)) (fun t => (t.rx 0, t.rxOut)) =
    some (⟨false, [0x42], none⟩, [⟨0, .results [.ok []]⟩]) := by decide

/-! ### The byte rows -/

theorem test_scanStart_scanSkip :
    sees (exec (.scanStart 0) (feeding [0x1A, 0x01] [] (.scanStart 1))) (fun t => (t.rx 0).feed) =
        some (some ⟨[], .scanEnd 1 2⟩) ∧
      sees (exec (.scanSkip 0 0x1A) (feeding [0x1A, 0x01] [] (.scanStart 0))) (fun t => (t.rx 0).feed) =
        some (some ⟨[], .scanStart 1⟩) := by decide
theorem test_scanEnd_scanBody :
    sees (exec (.scanEnd 0) (feeding [0x01, 0x01, 0x1A] [] (.scanEnd 0 2))) (fun t => (t.rx 0).feed) =
        some (some ⟨[], .found 0 2⟩) ∧
      sees (exec (.scanBody 0 0x01) (feeding [0x01, 0x01, 0x1A] [] (.scanEnd 0 1))) (fun t => (t.rx 0).feed) =
        some (some ⟨[], .scanEnd 0 2⟩) := by decide
theorem test_scanSkip_otherByte :
    exec (.scanSkip 0 0x42) (feeding [0x41] [] (.scanStart 0)) = .refused .byteMismatch := rfl
theorem test_unescEscape_unescComplement_X8 :
    sees (exec (.unescEscape 0) (feeding [] [] (.unescape [0x01, 0x1B, 0x1B, 0x1A] [0x1B, 0x1B] false [])))
        (fun t => (t.rx 0).feed) = some (some ⟨[], .unescape [0x01, 0x1B, 0x1B, 0x1A] [0x1B] true []⟩) ∧
      sees (exec (.unescComplement 0 0x1B) (feeding [] [] (.unescape [0x01, 0x1B, 0x1B, 0x1A] [0x1B] true [])))
        (fun t => (t.rx 0).feed) = some (some ⟨[], .unescape [0x01, 0x1B, 0x1B, 0x1A] [] false [0xE4]⟩) := by decide
theorem test_unescLiteral_X18 :
    sees (exec (.unescLiteral 0 0xFE) (feeding [] [] (.unescape [0x01, 0xFE, 0x1A] [0xFE] false [])))
      (fun t => (t.rx 0).feed) = some (some ⟨[], .unescape [0x01, 0xFE, 0x1A] [] false [0xFE]⟩) := by decide
theorem test_pair_X12_X15 :
    sees (exec (.pair 0 0x01) (feeding [] [] (.unescape [0x01, 0x1B, 0x01, 0x1A] [0x1B, 0x01] false [])))
        (fun t => (t.rx 0).feed) = some (some ⟨[], .unescape [0x01, 0x1B, 0x01, 0x1A] [] false [0xFE]⟩) ∧
      sees (exec (.pair 0 0xFF) (feeding [] [] (.unescape [0x01, 0x1B, 0xFF, 0x1A] [0x1B, 0xFF] false [])))
        (fun t => (t.rx 0).feed) = some (some ⟨[], .unescape [0x01, 0x1B, 0xFF, 0x1A] [] false [0x00]⟩) := by decide
theorem test_pairIllegal_X6 :
    sees (exec (.pairIllegal 0) (feeding [0x01] [] (.unescape [0x01, 0x1B, 0x1A] [0x1B] false []))) (·.rx 0) =
      some ⟨false, [0x01], some ⟨[.err .malformedFrame], .scanStart 0⟩⟩ := by decide
/-- Section 2.6, lines 1 and 2. -/
theorem test_byteHunt :
    sees (exec (.byteHuntSkip 0 0xFF) State.reset) (fun t => ((t.rx 0).rxbuf, t.rxOut)) =
        some ([0xFF], [⟨0, .results []⟩]) ∧
      sees (exec (.byteHuntStart 0) (resting none [0xFF]))
        (fun t => (orphans (t.rx 0).rxbuf, openTail (t.rx 0).rxbuf, phaseOf (t.rx 0).rxbuf)) =
        some ([0xFF], [], .collect) := by decide
/-- Section 2.6, lines 5 and 6. -/
theorem test_byteCollect :
    sees (exec (.byteCollectBody 0 0xFE) (resting none [0xFF, 0x01, 0x41, 0x1B]))
        (fun t => (openTail (t.rx 0).rxbuf, unescFold (openTail (t.rx 0).rxbuf))) =
        some ([0x41, 0x1B, 0xFE], ([0x41, 0x01], false)) ∧
      sees (exec (.byteCollectEnd 0) (resting none [0xFF, 0x01, 0x41, 0x1B, 0xFE])) (fun t => (t.rx 0, t.rxOut)) =
        some (Reassembler.fresh, [⟨0, .results [.ok [0x41, 0x01]]⟩]) := by decide
/-- R120: a byte at occupancy BUF_CAP. -/
theorem test_byteHuntSkip_overflow :
    sees (exec (.byteHuntSkip 0 0x41) (resting (some 2) [0xFF, 0xFF])) (fun t => ((t.rx 0).fault, t.rxOut)) =
      some (true, [⟨0, .bufferOverflow⟩]) := by decide
/-- The last line of section 2.6's table: `01 1B 1A` after noise gives the error; a byte step. -/
theorem test_step_rxByte :
    sees (step (asking (resting none [0x1A, 0x01, 0x1B]) (.rxByte 0 0x1A))) (fun t => (t.rx 0, t.rxOut)) =
      some (Reassembler.fresh, [⟨0, .results [.err .malformedFrame]⟩]) := by decide

/-! ### Witnesses: something concrete meets the hypotheses of each statement -/

theorem encodes_packet (p : List Byte) : Encodes p (packet p) := fun _ => rfl

theorem witness_DecodeOfEncode : WellFormed (.pair 3 0xFF) = true ∧
    encode (.pair 3 0xFF) = some (.symbol, [0x1B, 0xFF]) ∧ (Instr.pair 3 0xFF).target = some 3 ∧
    WellFormed (.encPlain 0x1C) = true ∧ encode (.encPlain 0x1C) = some (.payload, [0x1C]) ∧
    (Instr.encPlain 0x1C).target = none := by decide
theorem witness_EncodeOfDecode :
    decode .symbol 3 [0x1B, 0x00, 0x1A] = .ok (.pair 3 0x00, [0x1A]) ∧
      decode .symbol 3 [0x1C, 0x1A] = .ok (.unescLiteral 3 0x1C, [0x1A]) := ⟨rfl, rfl⟩
theorem witness_ByteMeaningByContext : (0x1A : Byte) ≠ 0x1B := by decide

/-- One witness for each clause of the step statement. -/
theorem witness_StepRuns_idle : State.reset.pending = [] := rfl
theorem witness_StepRuns_call : (asking State.reset (.call (.feed 0 [0x01]))).pending = .call (.feed 0 [0x01]) :: [] ∧
    WellFormed (.feed 0 [0x01]) = true := ⟨rfl, rfl⟩
theorem witness_StepRuns_sop_eop : (asking State.reset .sop).pending = .sop :: [] ∧
    (asking State.reset .eop).pending = .eop :: [] := ⟨rfl, rfl⟩
theorem witness_StepRuns_payloadByte : (asking State.reset (.payloadByte 0x1A)).pending = .payloadByte 0x1A :: [] ∧
    decode .payload 0 [0x1A] = .ok (.encStuffEnd, []) := ⟨rfl, rfl⟩
theorem witness_StepRuns_rxByte : (asking (resting none [0x01]) (.rxByte 0 0x1A)).pending = .rxByte 0 0x1A :: [] ∧
    phaseOf ((asking (resting none [0x01]) (.rxByte 0 0x1A)).rx 0).rxbuf = .collect ∧
    decode .collect 0 [0x1A] = .ok (.byteCollectEnd 0, []) := ⟨rfl, by decide, rfl⟩
theorem witness_StepRuns_scanStart :
    Feeding 0 (asking (feeding [0x41, 0x01] [] (.scanStart 1)) (.nextByte 0)) [] (.scanStart 1) ∧
      readByte ((asking (feeding [0x41, 0x01] [] (.scanStart 1)) (.nextByte 0)).rx 0).rxbuf 1 = some 0x01 ∧
      decode .lookStart 0 [0x01] = .ok (.scanStart 0, []) := ⟨rfl, rfl, rfl⟩
theorem witness_StepRuns_scanEnd :
    Feeding 0 (asking (feeding [0x01, 0x1A] [] (.scanEnd 0 1)) (.nextByte 0)) [] (.scanEnd 0 1) ∧
      readByte ((asking (feeding [0x01, 0x1A] [] (.scanEnd 0 1)) (.nextByte 0)).rx 0).rxbuf 1 = some 0x1A ∧
      decode .lookEnd 0 [0x1A] = .ok (.scanEnd 0, []) := ⟨rfl, rfl, rfl⟩
theorem witness_StepRuns_unescape :
    Feeding 0 (asking (feeding [] [] (.unescape [0x01, 0x1B, 0x1A] [0x1B] false [])) (.nextByte 0)) []
        (.unescape [0x01, 0x1B, 0x1A] [0x1B] false []) ∧
      decode .clear 0 [0x1B] = .ok (.unescEscape 0, []) ∧
      decode .symbol 0 [0x1B, 0x1A] = .ok (.pairIllegal 0, []) := ⟨rfl, rfl, rfl⟩

theorem witness_PacketLength : Encodes [0x41, 0x42] [0x01, 0x41, 0x42, 0x1A] ∧
    Encodes [0x01, 0x1A] [0x01, 0x1B, 0xFE, 0x1B, 0xE5, 0x1A] ∧
    Encodes [0x01, 0x1A, 0x1B] [0x01, 0x1B, 0xFE, 0x1B, 0xE5, 0x1B, 0xE4, 0x1A] :=
  ⟨fun _ => rfl, fun _ => rfl, fun _ => rfl⟩
theorem witness_PacketMarkers : Encodes [0x1B] [0x01, 0x1B, 0xE4, 0x1A] := fun _ => rfl
theorem witness_CanonicalPacketRecognised : Encodes [0x02] [0x01, 0x02, 0x1A] ∧
    CanonicalSymbols [0x1B, 0xFE, 0x02] [0x01, 0x02] :=
  ⟨fun _ => rfl, .pair (by decide) (.data (by decide) (by decide) (by decide) .nil)⟩
theorem witness_EncoderRowsEmit : (withPayload false).payloadOpen = false ∧ (withPayload true).payloadOpen = true ∧
    (0x1C : Byte) ≠ 0x01 ∧ (0x1C : Byte) ≠ 0x1A ∧ (0x1C : Byte) ≠ 0x1B := by decide
theorem witness_EncoderRowsRefusedElsewhere : (withPayload true).payloadOpen = true ∧
    State.reset.payloadOpen = false ∧
    Instr.encEnd ∈ [Instr.encStuffStart, .encStuffEnd, .encStuffEscape, .encEnd] := by decide
theorem witness_EncoderEventsMakePacket : Encodes [0x01] [0x01, 0x1B, 0xFE, 0x1A] ∧
    State.reset.payloadOpen = false := ⟨fun _ => rfl, rfl⟩

theorem ready_reset : Ready 0 State.reset := ⟨rfl, rfl⟩
theorem ready_resting (cap : Option Nat) (buf : List Byte) : Ready 0 (resting cap buf) := by
  constructor <;> (cases buf <;> rfl)

theorem witness_FeedRunsLoop : Ready 0 (resting none [0x01]) ∧ (resting none [0x01]).cfg.bufCap = none :=
  ⟨ready_resting _ _, rfl⟩
/-- Where the bound on results is met: F7's chunk, two bytes for one result. -/
theorem witness_LoopEnds : Ready 0 State.reset ∧ State.reset.cfg.bufCap = none ∧
    Feeds 0 [0x01, 0x1A] State.reset [.ok []] [] ∧
    Drains ((State.reset.rx 0).rxbuf ++ [0x01, 0x1A]) [.ok []] [] :=
  ⟨ready_reset, rfl, ⟨_, rfl, rfl, rfl, rfl, rfl, rfl, rfl, rfl, fun m _ => by cases m <;> rfl⟩,
    drains_iff.mpr (by decide)⟩
/-- B1's chunk: occupancy reaches the capacity and never exceeds it. -/
theorem witness_FeedWithCapacity_fits : Ready 0 (resting (some 2) [0x01]) ∧
    (resting (some 2) [0x01]).cfg.bufCap = some 2 ∧ Settled ((resting (some 2) [0x01]).rx 0).rxbuf ∧
    ∀ i < ([0x41, 0x1A] : List Byte).length, ∀ rs left,
      Drains (((resting (some 2) [0x01]).rx 0).rxbuf ++ ([0x41, 0x1A] : List Byte).take (i + 1)) rs left →
        left.length ≤ 2 := by
  refine ⟨ready_resting _ _, rfl, .inr ⟨[], [], rfl, by decide, by decide⟩, fun i hi rs left h => ?_⟩
  rw [drains_iff] at h
  have hl : left = (drain (((resting (some 2) [0x01]).rx 0).rxbuf ++ ([0x41, 0x1A] : List Byte).take (i + 1))).2 := by
    rw [h]
  rw [hl]
  clear hl h
  revert i
  decide
/-- B9's capacity with one more byte: the third retained byte does not fit. -/
theorem witness_FeedWithCapacity_overflows : Ready 0 (resting (some 2) [0x01]) ∧
    (resting (some 2) [0x01]).cfg.bufCap = some 2 ∧ Settled ((resting (some 2) [0x01]).rx 0).rxbuf ∧
    1 < ([0x41, 0x42] : List Byte).length ∧
    Drains (((resting (some 2) [0x01]).rx 0).rxbuf ++ ([0x41, 0x42] : List Byte).take (1 + 1)) []
      [0x01, 0x41, 0x42] ∧ 2 < ([0x01, 0x41, 0x42] : List Byte).length :=
  ⟨ready_resting _ _, rfl, .inr ⟨[], [], rfl, by decide, by decide⟩, by decide, drains_iff.mpr (by decide), by decide⟩
theorem witness_FaultReturnedAgain : (faulted.rx 0).fault = true ∧ (0x00 : Byte) ≠ START ∧ (0x01 : Byte) ≠ END := by
  decide
theorem witness_OverlapRefused : ((feeding [0x01] [] .stopped).rx 0).fault = false ∧
    ((feeding [0x01] [] .stopped).rx 0).feed = some ⟨[], .stopped⟩ := by decide
theorem witness_EmptyFeedIdempotent : Ready 0 (resting (some 1) [0x01]) ∧
    Settled ((resting (some 1) [0x01]).rx 0).rxbuf :=
  ⟨ready_resting _ _, .inr ⟨[], [], rfl, by decide, by decide⟩⟩
theorem witness_ChunkingDoesNotMatter : Ready 0 (resting none [0x01, 0x1A]) ∧ Ready 0 (resting (some 3) [0x41]) :=
  ⟨ready_resting _ _, ready_resting _ _⟩
/-- Both outcomes of the chunking statement occur: the last byte that fits, and one byte more, whole and cut in two. -/
theorem witness_ChunkingDoesNotMatter_outcomes :
    feedView (resting (some 3) [0x41]) [0x42, 0x43] = some ([.results []], [0x41, 0x42, 0x43], false) ∧
      sees (exec (.feed 0 [0x42, 0x43, 0x44]) (resting (some 3) [0x41])) (fun t => (t.rx 0).fault) = some true ∧
      sees (exec (.feed 0 [0x43, 0x44]) (resting (some 3) [0x41, 0x42])) (fun t => (t.rx 0).fault) = some true := by
  decide
theorem witness_RoundTrip : Ready 0 (resting none [0xFF, 0x1A]) ∧ (resting none [0xFF, 0x1A]).cfg.bufCap = none ∧
    START ∉ ((resting none [0xFF, 0x1A]).rx 0).rxbuf ∧
    (∀ x ∈ [([], packet []), ([0x1B], packet [0x1B])], Encodes x.1 x.2) ∧
    [(([] : List Byte), packet []), ([0x1B], packet [0x1B])] ≠ [] :=
  ⟨ready_resting _ _, rfl, by decide, by
    intro x hx
    simp only [List.mem_cons, List.not_mem_nil, or_false] at hx
    rcases hx with rfl | rfl <;> exact encodes_packet _, by decide⟩
/-- Program P4: a packet fed while a START is waiting. -/
theorem witness_RoundTrip_openFrame : Ready 0 (resting none [0x01, 0x41]) ∧
    (resting none [0x01, 0x41]).cfg.bufCap = none ∧
    ((resting none [0x01, 0x41]).rx 0).rxbuf = [] ++ START :: [0x41] ∧ START ∉ ([] : List Byte) ∧
    END ∉ ([0x41] : List Byte) ∧ Encodes [0x42] [0x01, 0x42, 0x1A] :=
  ⟨ready_resting _ _, rfl, rfl, by decide, by decide, fun _ => rfl⟩
theorem witness_StreamView : Ready 0 (resting none [0x41]) ∧ (resting none [0x41]).cfg.bufCap = none ∧
    Settled ((resting none [0x41]).rx 0).rxbuf := ⟨ready_resting _ _, rfl, .inl (by decide)⟩
theorem witness_MalformedExactly : Ready 0 State.reset ∧ State.reset.cfg.bufCap = none ∧
    START ∉ (State.reset.rx 0).rxbuf ∧ END ∉ ([0x41, 0x1B] : List Byte) ∧ Symbols [0x41] [0x41] ∧
    ([0x41, 0x1B] : List Byte) = [0x41] ++ [ESCAPE] ∧ Symbols [0x1B, 0x1B] [0xE4] :=
  ⟨ready_reset, rfl, by decide, by decide, .literal (by decide) .nil, rfl, .pair .nil⟩
/-- Program P3. -/
theorem witness_MalformedIsLocal : Ready 0 State.reset ∧ State.reset.cfg.bufCap = none ∧
    Drains ((State.reset.rx 0).rxbuf ++ [0x01, 0x41, 0x1A]) [.ok [0x41]] [] ∧ START ∉ ([0xFF] : List Byte) ∧
    Symbols [0x1B, 0x1B] [0xE4] ∧ END ∉ ([0x1B, 0x1B] : List Byte) ∧
    Drains [0x01, 0x42, 0x1A, 0x01] [.ok [0x42]] [0x01] :=
  ⟨ready_reset, rfl, drains_iff.mpr (by decide), by decide, .pair .nil, by decide, drains_iff.mpr (by decide)⟩
theorem witness_NoResynchronisation : Ready 0 (resting none [0x01, 0x41]) ∧
    (resting none [0x01, 0x41]).cfg.bufCap = none ∧
    ((resting none [0x01, 0x41]).rx 0).rxbuf = [] ++ START :: [0x41] ∧ START ∉ ([] : List Byte) ∧
    END ∉ ([0x41] : List Byte) ∧ END ∉ ([0x42] : List Byte) ∧ Drains [0x01] [] [0x01] :=
  ⟨ready_resting _ _, rfl, rfl, by decide, by decide, by decide, drains_iff.mpr (by decide)⟩
theorem witness_JoinMidStream : Ready 0 State.reset ∧ State.reset.cfg.bufCap = none ∧
    START ∉ (State.reset.rx 0).rxbuf ∧ Encodes [0x41] [0x01, 0x41, 0x1A] ∧
    (∀ x ∈ [([0x42], packet [0x42])], Encodes x.1 x.2) ∧ [([0x42], packet [0x42])] ≠ [] :=
  ⟨ready_reset, rfl, by decide, fun _ => rfl, by
    intro x hx
    rw [List.mem_singleton] at hx
    subst hx
    exact encodes_packet _, by decide⟩
theorem witness_OrphansUnobservable : Ready 0 (resting none [0xFF, 0x01, 0x41]) ∧
    Ready 0 (resting none [0x01, 0x41]) ∧ (resting none [0x01, 0x41]).cfg.bufCap = none ∧
    SameButOrphans ((resting none [0xFF, 0x01, 0x41]).rx 0).rxbuf ((resting none [0x01, 0x41]).rx 0).rxbuf :=
  ⟨ready_resting _ _, ready_resting _ _, rfl, .inr ⟨[0xFF], [], [0x41], rfl, rfl, by decide, by decide⟩⟩
theorem witness_DecodeIsResetThenFeed : (feeding [0x01] [] .stopped).cfg.bufCap = none := rfl

theorem witness_AppendStep : Ready 0 (resting none [0x01]) ∧ (resting none [0x01]).cfg.bufCap = none :=
  ⟨ready_resting _ _, rfl⟩
theorem witness_AppendWithCapacity_completes : Ready 0 (resting (some 2) [0x01]) ∧
    (resting (some 2) [0x01]).cfg.bufCap ≠ none ∧
    Feeds 0 [0x41] (resting (some 2) [0x01]) [] [0x01, 0x41] :=
  ⟨ready_resting _ _, by decide, _, rfl, rfl, rfl, rfl, rfl, rfl, rfl, rfl, fun m hm => by
    cases m with
    | zero => exact absurd rfl hm
    | succ m => cases m <;> rfl⟩
theorem witness_AppendWithCapacity_overflows : Ready 0 (resting (some 1) [0x01]) ∧
    (resting (some 1) [0x01]).cfg.bufCap ≠ none ∧
    ∃ t, exec (.feed 0 [0x41]) (resting (some 1) [0x01]) = .next t ∧ Overflowed 0 (resting (some 1) [0x01]) t :=
  ⟨ready_resting _ _, by decide, _, rfl, rfl, rfl, rfl, rfl, rfl, rfl, rfl, fun m hm => by
    cases m with
    | zero => exact absurd rfl hm
    | succ m => cases m <;> rfl⟩
theorem witness_ScanSteps_scanStart : Feeding 0 (feeding [0x41] [] (.scanStart 1)) [] (.scanStart 1) ∧
    START ∉ ((feeding [0x41] [] (.scanStart 1)).rx 0).rxbuf ∧
    Feeding 0 (feeding [0x41, 0x01] [] (.scanStart 0)) [] (.scanStart 0) ∧
    ((feeding [0x41, 0x01] [] (.scanStart 0)).rx 0).rxbuf = [0x41] ++ START :: [] ∧ START ∉ ([0x41] : List Byte) :=
  ⟨rfl, by decide, rfl, rfl, by decide⟩
theorem witness_ScanSteps_scanEnd :
    ((feeding [0x1A, 0x01, 0x41] [] (.scanEnd 1 2)).rx 0).rxbuf = [0x1A] ++ START :: [0x41] ∧
      Feeding 0 (feeding [0x1A, 0x01, 0x41] [] (.scanEnd 1 2)) [] (.scanEnd [(0x1A : Byte)].length 2) ∧
      END ∉ ([0x41] : List Byte) ∧
    ((feeding [0x01, 0x1A] [] (.scanEnd 0 1)).rx 0).rxbuf = [] ++ START :: [0x1A] ∧
      Feeding 0 (feeding [0x01, 0x1A] [] (.scanEnd 0 1)) [] (.scanEnd ([] : List Byte).length 1) ∧
      ([0x1A] : List Byte) = [] ++ END :: [] ∧ END ∉ ([] : List Byte) :=
  ⟨rfl, rfl, by decide, rfl, rfl, rfl, by decide⟩
theorem witness_ExtractStep :
    ((feeding [0xFF, 0x01, 0x41, 0x1A, 0x01] [] (.found 1 3)).rx 0).rxbuf =
      [0xFF] ++ START :: [0x41] ++ END :: [0x01] ∧
    Feeding 0 (feeding [0xFF, 0x01, 0x41, 0x1A, 0x01] [] (.found 1 3)) []
      (.found [(0xFF : Byte)].length ([(0xFF : Byte)].length + 1 + [(0x41 : Byte)].length)) := ⟨rfl, rfl⟩
theorem witness_UnescapeAndEmitSteps :
    Feeding 0 (feeding [] [] (.unescape [0x01, 0x1B, 0xFE, 0x1A] [0x1B, 0xFE] false [])) []
        (.unescape (START :: [0x1B, 0xFE] ++ [END]) [0x1B, 0xFE] false []) ∧ Symbols [0x1B, 0xFE] [0x01] ∧
      Feeding 0 (feeding [] [] (.unescape [0x01, 0x1B, 0x1A] [0x1B] false [])) []
        (.unescape (START :: [0x1B] ++ [END]) [0x1B] false []) ∧ ([0x1B] : List Byte) = [] ++ [ESCAPE] ∧
      Feeding 0 (feeding [] [] (.unescape [0x01, 0x1B, 0x1A] [] true [])) [] (.unescape [0x01, 0x1B, 0x1A] [] true []) ∧
      Feeding 0 (feeding [] [] (.unescape [0x01, 0x1A] [] false [])) [] (.unescape [0x01, 0x1A] [] false []) ∧
      Feeding 0 (feeding [0x01] [.ok []] .stopped) [.ok []] .stopped :=
  ⟨rfl, .pair .nil, rfl, rfl, rfl, rfl, rfl⟩
theorem witness_StepsOutOfOrderRefused : (State.reset.rx 0).feed = none ∧
    ((feeding [0x01] [] .stopped).rx 0).feed = some ⟨[], .stopped⟩ ∧ (∀ pos, Pass.stopped ≠ .scanStart pos) ∧
    (∀ i pos, Pass.stopped ≠ .scanEnd i pos) ∧ (∀ i j, Pass.stopped ≠ .found i j) ∧
    (∀ fr rest pend out, Pass.stopped ≠ .unescape fr rest pend out) ∧
    ((feeding [0x01] [] (.scanStart 0)).rx 0).feed = some ⟨[], .scanStart 0⟩ ∧ Pass.scanStart 0 ≠ .stopped := by
  refine ⟨rfl, rfl, ?_, ?_, ?_, ?_, rfl, ?_⟩ <;> intros <;> intro h <;> cases h
theorem witness_FeedIsItsSteps : Ready 0 (resting (some 3) [0x01, 0x41]) ∧
    Settled ((resting (some 3) [0x01, 0x41]).rx 0).rxbuf :=
  ⟨ready_resting _ _, .inr ⟨[], [0x41], rfl, by decide, by decide⟩⟩

theorem witness_ScanRows : Feeding 0 (feeding [0x41, 0x01] [] (.scanStart 1)) [] (.scanStart 1) ∧
    readByte ((feeding [0x41, 0x01] [] (.scanStart 1)).rx 0).rxbuf 1 = some START ∧
    readByte ((feeding [0x41, 0x01] [] (.scanStart 0)).rx 0).rxbuf 0 = some 0x41 ∧ (0x41 : Byte) ≠ START ∧
    Feeding 0 (feeding [0x01, 0x1A] [] (.scanEnd 0 1)) [] (.scanEnd 0 1) ∧
    readByte ((feeding [0x01, 0x1A] [] (.scanEnd 0 1)).rx 0).rxbuf 1 = some END ∧
    readByte ((feeding [0x01, 0x01] [] (.scanEnd 0 1)).rx 0).rxbuf 1 = some 0x01 ∧ (0x01 : Byte) ≠ END :=
  ⟨rfl, rfl, rfl, by decide, rfl, rfl, rfl, by decide⟩
theorem witness_NoReadOutsideBuffer : ((feeding [0x41] [] (.scanStart 1)).rx 0).rxbuf.length ≤ 1 ∧
    Feeding 0 (feeding [0x41] [] (.scanStart 1)) [] (.scanStart 1) ∧
    ((feeding [0x01] [] (.scanEnd 0 1)).rx 0).rxbuf.length ≤ 1 ∧
    Feeding 0 (feeding [0x01] [] (.scanEnd 0 1)) [] (.scanEnd 0 1) := ⟨by decide, rfl, by decide, rfl⟩
theorem witness_UnescapeRows :
    Feeding 0 (feeding [] [] (.unescape [0x01, 0x1B, 0x1A] [0x1B] false [])) []
        (.unescape [0x01, 0x1B, 0x1A] (ESCAPE :: []) false []) ∧ (0xFE : Byte) ≠ ESCAPE ∧
      Feeding 0 (feeding [] [] (.unescape [0x01, 0xFE, 0x1A] [0xFE] false [])) []
        (.unescape [0x01, 0xFE, 0x1A] (0xFE :: []) false []) ∧
      Feeding 0 (feeding [] [] (.unescape [0x01, 0x1B, 0x1B, 0x1A] [0x1B] true [])) []
        (.unescape [0x01, 0x1B, 0x1B, 0x1A] (0x1B :: []) true []) := ⟨rfl, by decide, rfl, rfl⟩
theorem witness_PairRows : (0x1B : Byte) ≠ END ∧
    Feeding 0 (feeding [] [] (.unescape [0x01, 0x1B, 0x1B, 0x1A] [0x1B, 0x1B] false [])) []
      (.unescape [0x01, 0x1B, 0x1B, 0x1A] (ESCAPE :: 0x1B :: []) false []) ∧
    Feeding 0 (feeding [] [] (.unescape [0x01, 0x1B, 0x1A] [0x1B] false [])) []
      (.unescape [0x01, 0x1B, 0x1A] [ESCAPE] false []) := ⟨by decide, rfl, rfl⟩
theorem witness_ScanByteByByte :
    ((feeding [0x1A, 0x01] [] (.scanStart 0)).rx 0).rxbuf = [0x1A] ++ START :: [] ∧ START ∉ ([0x1A] : List Byte) ∧
      Feeding 0 (feeding [0x1A, 0x01] [] (.scanStart 0)) [] (.scanStart 0) ∧
      ((feeding [0x01, 0x41, 0x1A] [] (.scanEnd 0 1)).rx 0).rxbuf.drop (0 + 1) = [0x41] ++ END :: [] ∧
      END ∉ ([0x41] : List Byte) ∧ Feeding 0 (feeding [0x01, 0x41, 0x1A] [] (.scanEnd 0 1)) [] (.scanEnd 0 (0 + 1)) :=
  ⟨rfl, by decide, rfl, rfl, by decide, rfl⟩
theorem witness_UnescapeByteByByte :
    Feeding 0 (feeding [] [] (.unescape [0x01, 0x1B, 0x1B, 0x1A] [0x1B, 0x1B] false [])) []
      (.unescape (START :: [0x1B, 0x1B] ++ [END]) [0x1B, 0x1B] false []) := rfl

/-- HUNT one byte below the capacity. -/
theorem witness_ByteSteps_hunt : Ready 0 (resting (some 2) [0x1A]) ∧ START ∉ ([0x1A] : List Byte) ∧
    ((resting (some 2) [0x1A]).rx 0).rxbuf = [0x1A] ∧
    (∀ cap, (resting (some 2) [0x1A]).cfg.bufCap = some cap → [(0x1A : Byte)].length < cap) ∧
    (0x1A : Byte) ≠ START := by
  refine ⟨ready_resting _ _, by decide, rfl, fun cap h => ?_, by decide⟩
  cases h
  decide
/-- COLLECT one byte below the capacity, and COLLECT at it. -/
theorem witness_ByteSteps_collect : Ready 0 (resting (some 3) [0x01, 0x41]) ∧ START ∉ ([] : List Byte) ∧
    ((resting (some 3) [0x01, 0x41]).rx 0).rxbuf = [] ++ START :: [0x41] ∧
    (∀ cap, (resting (some 3) [0x01, 0x41]).cfg.bufCap = some cap →
      ([] : List Byte).length + 1 + [(0x41 : Byte)].length < cap) ∧ (0x01 : Byte) ≠ END ∧
    Ready 0 (resting (some 2) [0x01, 0x41]) ∧
    ((resting (some 2) [0x01, 0x41]).rx 0).rxbuf = [] ++ START :: [0x41] := by
  refine ⟨ready_resting _ _, by decide, rfl, fun cap h => ?_, by decide, ready_resting _ _, rfl⟩
  cases h
  decide
theorem witness_ByteOccupancy : Ready 0 (resting (some 1) [0xFF]) ∧ (0x00 : Byte) ≠ START ∧
    (∃ t, exec (.byteHuntSkip 0 0x00) (resting (some 1) [0xFF]) = .next t) ∧
    (resting (some 1) [0xFF]).cfg.bufCap = some ((resting (some 1) [0xFF]).rx 0).rxbuf.length ∧
    (∃ t, exec (.byteHuntStart 0) (resting (some 2) [0xFF]) = .next t ∧ (t.rx 0).fault = false) ∧
    (0x01 : Byte) ≠ END ∧ (∃ t, exec (.byteCollectBody 0 0x01) (resting none [0x01]) = .next t) ∧
    (∃ t, exec (.byteCollectEnd 0) (resting (some 1) [0x01]) = .next t) :=
  ⟨ready_resting _ _, by decide, ⟨_, rfl⟩, rfl, ⟨_, rfl, rfl⟩, by decide, ⟨_, rfl⟩, ⟨_, rfl⟩⟩
theorem witness_BytePhases : Ready 0 (resting none [0x01]) ∧ START ∈ ((resting none [0x01]).rx 0).rxbuf ∧
    (0x1A : Byte) ≠ START ∧ Ready 0 (resting none [0x1A]) ∧ START ∉ ((resting none [0x1A]).rx 0).rxbuf ∧
    (0x01 : Byte) ≠ END :=
  ⟨ready_resting _ _, by decide, by decide, ready_resting _ _, by decide, by decide⟩
theorem witness_ByteSerialEqualsFeed : Ready 0 (resting (some 2) [0x41]) ∧
    Settled ((resting (some 2) [0x41]).rx 0).rxbuf := ⟨ready_resting _ _, .inl (by decide)⟩

theorem witness_ReassemblersIsolated :
    (∃ t, exec (.feed 1 [0x01]) (resting none [0x41]) = .next t) ∧ (Instr.feed 1 [0x01]).target ≠ some 0 ∧
      (Instr.encode []).target ≠ some 0 := ⟨⟨_, rfl⟩, by decide, by decide⟩
theorem witness_ChannelsOnlyGrow : (∃ t, exec .encStart State.reset = .next t) ∧ Instr.encStart.target = none ∧
    (∃ t, exec (.byteHuntStart 1) State.reset = .next t) ∧ (Instr.byteHuntStart 1).target = some 1 :=
  ⟨⟨_, rfl⟩, rfl, ⟨_, rfl⟩, rfl⟩
theorem witness_BufferDiscipline : (∃ t, exec (.rxExtract 0) (feeding [0x01, 0x1A] [] (.found 0 1)) = .next t ∧
    (t.rx 0).fault = false) ∧ (Instr.rxExtract 0).target = some 0 ∧ ¬constructs (.rxExtract 0) 0 := by
  refine ⟨⟨_, rfl, rfl⟩, rfl, ?_⟩
  rintro (h | ⟨x, h⟩) <;> cases h
theorem witness_StepsLeaveBuffer :
    (∃ t, exec (.rxReturn 0) (feeding [0x41] [] .stopped) = .next t) ∧
      (∃ t, exec (.scanSkip 0 0x41) (feeding [0x41] [] (.scanStart 0)) = .next t) := ⟨⟨_, rfl⟩, ⟨_, rfl⟩⟩
theorem witness_FaultOnlyByOverflow :
    (∃ t, exec (.feed 0 [0x41]) faulted = .next t ∧ (faulted.rx 0).fault = true) ∧ ¬constructs (.feed 0 [0x41]) 0 ∧
      ((resting (some 0) []).rx 0).fault = false ∧
      (∃ t, exec (.feed 0 [0x01]) (resting (some 0) []) = .next t ∧ (t.rx 0).fault = true) := by
  refine ⟨⟨_, rfl, rfl⟩, ?_, rfl, ⟨_, rfl, rfl⟩⟩
  rintro (h | ⟨x, h⟩) <;> cases h
/-- A state with an open frame meets the invariant, and a step from it answers a next state. -/
theorem witness_InvariantKept : BlockInv (asking (resting (some 2) [0x01]) (.call (.feed 0 [0x1A]))) ∧
    ∃ t, step (asking (resting (some 2) [0x01]) (.call (.feed 0 [0x1A]))) = .next t := by
  refine ⟨⟨by decide, fun n => ?_⟩, _, rfl⟩
  cases n with
  | zero =>
    refine ⟨fun h => (by cases h), fun _ => ⟨.inr ⟨[], [], rfl, by decide, by decide⟩, fun k h => ?_⟩⟩
    cases h
    decide
  | succ n =>
    have h : (asking (resting (some 2) [0x01]) (.call (.feed 0 [0x1A]))).rx (n + 1) = Reassembler.fresh := by
      cases n <;> rfl
    rw [h]
    refine ⟨fun h => (by cases h), fun _ => ⟨.inl (by simp [Reassembler.fresh]), fun k _ => Nat.zero_le k⟩⟩

end Sys2Proof.Tests
end

section
/-!
SUPPORT. What an instruction can do to the block, said once: the Encoder's write the channel ENC_OUT and the open payload;
a Reassembler's have one of the effects of `RxEffect` on the Reassembler they act on, or construct it anew.
-/

namespace Sys2Proof.Machine

/-! ### The effects -/

/-- The moves of a FEED in progress that leave RXBUF and the results so far alone (R92, R93, R96, R105 to R107). -/
inductive PassMove (buf : List Byte) : Pass → Pass → Prop where
  | noStart {pos : Nat} : find START buf 0 = none → PassMove buf (.scanStart pos) .stopped
  | startFound {pos i : Nat} : find START buf 0 = some i → PassMove buf (.scanStart pos) (.scanEnd i (i + 1))
  | startMet {pos : Nat} : buf[pos]? = some START → PassMove buf (.scanStart pos) (.scanEnd pos (pos + 1))
  | skipped {pos : Nat} {b : Byte} : buf[pos]? = some b → b ≠ START →
      PassMove buf (.scanStart pos) (.scanStart (pos + 1))
  | noEnd {i pos : Nat} : find END buf (i + 1) = none → PassMove buf (.scanEnd i pos) .stopped
  | endFound {i pos j : Nat} : find END buf (i + 1) = some j → PassMove buf (.scanEnd i pos) (.found i j)
  | endMet {i pos : Nat} : buf[pos]? = some END → PassMove buf (.scanEnd i pos) (.found i pos)
  | bodyMet {i pos : Nat} {b : Byte} : buf[pos]? = some b → b ≠ END →
      PassMove buf (.scanEnd i pos) (.scanEnd i (pos + 1))
  | unescaped {frame rest : List Byte} {pend : Bool} {out : List Byte} :
      PassMove buf (.unescape frame rest pend out)
        (.unescape frame [] (unescFold (interior frame)).2 (unescFold (interior frame)).1)
  | symbolMet {frame rest : List Byte} {pend pend' : Bool} {out out' : List Byte} (met : List Byte) :
      met.foldl unescStep (out, pend) = (out', pend') →
      PassMove buf (.unescape frame (met ++ rest) pend out) (.unescape frame rest pend' out')

/-- What an instruction that brings the bytes `c` to Reassembler `n` and does not construct it can do, when it answers a
next state. -/
inductive RxEffect (n : RxId) (c : List Byte) (s : State) : State → Prop where
  /-- R135: the fault is returned again. -/
  | faultAgain : (s.rx n).fault = true → RxEffect n c s (s.deliver n .bufferOverflow)
  /-- R134: BufferOverflow, which needs a finite BUF_CAP. -/
  | overflow : Ready n s → s.cfg.bufCap ≠ none → RxEffect n c s (s.takeOverflow n)
  /-- R90, R134: a whole FEED. -/
  | fed {rs : List DecodeResult} {left : List Byte} : Ready n s →
      feedBuf s.cfg.bufCap (s.rx n).rxbuf c = some (rs, left) →
      RxEffect n c s ((s.setBuf n left).deliver n (.results rs))
  /-- R91: the first step of a FEED whose chunk fits. -/
  | appended {out : List DecodeResult × List Byte} : Ready n s →
      feedBuf s.cfg.bufCap (s.rx n).rxbuf c = some out →
      RxEffect n c s ((s.setBuf n ((s.rx n).rxbuf ++ c)).setFeed n (some { results := [], pass := .scanStart 0 }))
  /-- R113 to R115: one more byte is held, and completes no frame. -/
  | held {b : Byte} : Ready n s → c = [b] → START ∉ (s.rx n).rxbuf ∨ b ≠ END →
      overCap s.cfg.bufCap ((s.rx n).rxbuf ++ c) = false →
      RxEffect n c s ((s.setBuf n ((s.rx n).rxbuf ++ c)).deliver n (.results []))
  /-- R116: a frame is complete, and the buffer is consumed as a whole. -/
  | collected : Ready n s → c = [END] → phaseOf (s.rx n).rxbuf = .collect →
      RxEffect n c s ((s.setBuf n []).deliver n (.results [unescape (openTail (s.rx n).rxbuf)]))
  /-- A FEED in progress moves on and leaves RXBUF and the results alone. -/
  | moved {f : Feed} {p q : Pass} : c = [] → (s.rx n).feed = some f → f.pass = p → PassMove (s.rx n).rxbuf p q →
      RxEffect n c s (s.setPass n f q)
  /-- R94: the frame found is taken out of the buffer. -/
  | extracted {f : Feed} {i j : Nat} : c = [] → (s.rx n).feed = some f → f.pass = .found i j →
      RxEffect n c s ((s.setBuf n (removeThrough (s.rx n).rxbuf j)).setPass n f
        (.unescape (slice (s.rx n).rxbuf i j) (interior (slice (s.rx n).rxbuf i j)) false []))
  /-- R97, R98, R131: one more result, and the loop begins again. -/
  | emitted {f : Feed} {frame rest out : List Byte} {pend : Bool} : c = [] → (s.rx n).feed = some f →
      f.pass = .unescape frame rest pend out →
      RxEffect n c s (s.emitResult n f (verdict (rest.foldl unescStep (out, pend))))
  /-- R100: the results are handed over and the FEED is over. -/
  | returned {f : Feed} : c = [] → (s.rx n).feed = some f → f.pass = .stopped →
      RxEffect n c s ((s.setFeed n none).deliver n (.results f.results))

/-! ### The Encoder's instructions -/

theorem whenPayloadOpen_next {s t u : State} (h : whenPayloadOpen s u = .next t) : t = u := by
  unfold whenPayloadOpen at h
  split at h
  · exact (Host.Outcome.next.inj h).symm
  · cases h

/-- An Encoder instruction writes ENC_OUT and the open payload, and nothing else (R30). -/
theorem exec_encoder_next {i : Instr} {s t : State} (hi : i.target = none) (h : exec i s = .next t) :
    ∃ l o, t = { s with encOut := s.encOut ++ l, payloadOpen := o } := by
  cases i with
  | encode p => exact ⟨_, _, (Host.Outcome.next.inj h).symm⟩
  | encStart =>
    simp only [exec, execEncStart] at h
    split at h
    · cases h
    · exact ⟨_, _, (Host.Outcome.next.inj h).symm⟩
  | encPlain d =>
    simp only [exec, execEncPlain] at h
    split at h
    · cases h
    · exact ⟨_, _, whenPayloadOpen_next h⟩
  | encStuffStart | encStuffEnd | encStuffEscape | encEnd => exact ⟨_, _, whenPayloadOpen_next h⟩
  | feed | reset | decode | rxAppend | rxScanStart | rxScanEnd | rxExtract | rxUnescape | rxEmitErr | rxEmitOk
  | rxReturn | scanStart | scanSkip | scanEnd | scanBody | unescEscape | unescLiteral | unescComplement | pair
  | pairIllegal | byteHuntSkip | byteHuntStart | byteCollectBody | byteCollectEnd => cases hi

/-! ### FEED, RX.APPEND and the BYTE rows -/

section
variable {n : RxId} {b : Byte} {c : List Byte} {s t : State}

theorem feedBuf_none_ne {cap : Option Nat} {buf : List Byte} (h : feedBuf cap buf c = none) : cap ≠ none := by
  rintro rfl
  cases h

theorem phaseOf_hunt {buf : List Byte} : phaseOf buf = .hunt ↔ START ∉ buf := by
  rw [← find_none]
  unfold phaseOf
  cases find START buf 0 <;> simp

/-- An operation of an idle Reassembler: the fault is returned again, or it is what the rest of it does. -/
theorem whenIdle_effect {go : Result} (h : whenIdle n s go = .next t)
    (hgo : Ready n s → go = .next t → RxEffect n c s t) : RxEffect n c s t := by
  rcases whenIdle_next h with ⟨hf, rfl⟩ | ⟨hr, hg⟩
  · exact .faultAgain hf
  · exact hgo hr hg

theorem feedChunk_effect (hr : Ready n s) : RxEffect n c s (feedChunk n c s) := by
  rcases feedChunk_cases n c s with ⟨hb, ht⟩ | ⟨rs, left, hb, ht⟩
  · rw [ht]; exact .overflow hr (feedBuf_none_ne hb)
  · rw [ht]; exact .fed hr hb

theorem execFeed_effect (h : execFeed n c s = .next t) : RxEffect n c s t :=
  whenIdle_effect h fun hr hg => by
    cases hg
    exact feedChunk_effect hr

theorem execRxAppend_effect (h : execRxAppend n c s = .next t) : RxEffect n c s t :=
  whenIdle_effect h fun hr hg => by
    split at hg
    · cases hg; exact .overflow hr (feedBuf_none_ne ‹_›)
    · cases hg; exact .appended hr ‹_›

theorem holdByte_effect (hr : Ready n s) (hb : START ∉ (s.rx n).rxbuf ∨ b ≠ END) :
    RxEffect n [b] s (holdByte n b s) := by
  rcases holdByte_cases n b s with ⟨ho, ht⟩ | ⟨ho, ht⟩
  · rw [ht]
    refine .overflow hr fun hc => ?_
    rw [hc] at ho
    cases ho
  · rw [ht]; exact .held hr rfl hb ho

/-- A BYTE row: the fault is returned again, or the phase is the row's and it is what the rest of the row does. -/
theorem whenPhase_effect {p : Phase} {go : Result} (h : whenPhase n p s go = .next t)
    (hgo : Ready n s → phaseOf (s.rx n).rxbuf = p → go = .next t → RxEffect n c s t) : RxEffect n c s t :=
  whenIdle_effect h fun hr hg => by
    split at hg
    · exact hgo hr ‹_› hg
    · cases hg

theorem execByteHuntStart_effect (h : execByteHuntStart n s = .next t) : RxEffect n [START] s t :=
  whenPhase_effect h fun hr hp hg => by
    cases hg
    exact holdByte_effect hr (.inl (phaseOf_hunt.mp hp))

theorem execByteHuntSkip_effect (h : execByteHuntSkip n b s = .next t) : RxEffect n [b] s t := by
  unfold execByteHuntSkip at h
  split at h
  · cases h
  · refine whenPhase_effect h fun hr hp hg => ?_
    cases hg
    exact holdByte_effect hr (.inl (phaseOf_hunt.mp hp))

theorem execByteCollectBody_effect (h : execByteCollectBody n b s = .next t) : RxEffect n [b] s t := by
  unfold execByteCollectBody at h
  split at h
  · cases h
  · refine whenPhase_effect h fun hr hp hg => ?_
    cases hg
    exact holdByte_effect hr (.inr ‹_›)

theorem execByteCollectEnd_effect (h : execByteCollectEnd n s = .next t) : RxEffect n [END] s t :=
  whenPhase_effect h fun hr hp hg => by
    cases hg
    exact .collected hr rfl hp

/-! ### The steps and byte rows of a FEED in progress -/

theorem execRxScanStart_effect (h : execRxScanStart n s = .next t) : RxEffect n [] s t := by
  obtain ⟨f, hf, hg⟩ := whenFeeding_next h
  split at hg
  · split at hg
    · cases hg; exact .moved rfl hf ‹_› (.noStart ‹_›)
    · cases hg; exact .moved rfl hf ‹_› (.startFound ‹_›)
  · cases hg

theorem execRxScanEnd_effect (h : execRxScanEnd n s = .next t) : RxEffect n [] s t := by
  obtain ⟨f, hf, hg⟩ := whenFeeding_next h
  split at hg
  · split at hg
    · cases hg; exact .moved rfl hf ‹_› (.noEnd ‹_›)
    · cases hg; exact .moved rfl hf ‹_› (.endFound ‹_›)
  · cases hg

theorem execRxExtract_effect (h : execRxExtract n s = .next t) : RxEffect n [] s t := by
  obtain ⟨f, hf, hg⟩ := whenFeeding_next h
  split at hg
  · cases hg; exact .extracted rfl hf ‹_›
  · cases hg

theorem execRxUnescape_effect (h : execRxUnescape n s = .next t) : RxEffect n [] s t := by
  obtain ⟨f, hf, hg⟩ := whenFeeding_next h
  split at hg
  · cases hg; exact .moved rfl hf ‹_› .unescaped
  · cases hg

theorem execRxEmitErr_effect (h : execRxEmitErr n s = .next t) : RxEffect n [] s t := by
  obtain ⟨f, hf, hg⟩ := whenFeeding_next h
  split at hg
  · cases hg; exact .emitted rfl hf ‹_›
  · cases hg

theorem execRxEmitOk_effect (h : execRxEmitOk n s = .next t) : RxEffect n [] s t := by
  obtain ⟨f, hf, hg⟩ := whenFeeding_next h
  split at hg
  · cases hg; exact .emitted rfl hf ‹_›
  · cases hg

theorem execRxReturn_effect (h : execRxReturn n s = .next t) : RxEffect n [] s t := by
  obtain ⟨f, hf, hg⟩ := whenFeeding_next h
  split at hg
  · cases hg; exact .returned rfl hf ‹_›
  · cases hg

/-- A byte row that looks at the byte `b` of RXBUF: that byte is there, and it is what the row does. -/
theorem lookAt_byte_next {pos : Nat} {u : State} {r : Refusal}
    (h : lookAt n pos s (fun x => if x = b then .next u else .refused r) = .next t) :
    (s.rx n).rxbuf[pos]? = some b ∧ t = u := by
  obtain ⟨x, hx, hg⟩ := lookAt_next h
  split at hg
  · cases hg
    subst ‹x = b›
    exact ⟨hx, rfl⟩
  · cases hg

theorem execScanStart_effect (h : execScanStart n s = .next t) : RxEffect n [] s t := by
  obtain ⟨f, hf, hg⟩ := whenFeeding_next h
  split at hg
  · obtain ⟨hb, rfl⟩ := lookAt_byte_next hg
    exact .moved rfl hf ‹_› (.startMet hb)
  · cases hg

theorem execScanSkip_effect (h : execScanSkip n b s = .next t) : RxEffect n [] s t := by
  unfold execScanSkip at h
  split at h
  · cases h
  · obtain ⟨f, hf, hg⟩ := whenFeeding_next h
    split at hg
    · obtain ⟨hb, rfl⟩ := lookAt_byte_next hg
      exact .moved rfl hf ‹_› (.skipped hb ‹_›)
    · cases hg

theorem execScanEnd_effect (h : execScanEnd n s = .next t) : RxEffect n [] s t := by
  obtain ⟨f, hf, hg⟩ := whenFeeding_next h
  split at hg
  · obtain ⟨hb, rfl⟩ := lookAt_byte_next hg
    exact .moved rfl hf ‹_› (.endMet hb)
  · cases hg

theorem execScanBody_effect (h : execScanBody n b s = .next t) : RxEffect n [] s t := by
  unfold execScanBody at h
  split at h
  · cases h
  · obtain ⟨f, hf, hg⟩ := whenFeeding_next h
    split at hg
    · obtain ⟨hb, rfl⟩ := lookAt_byte_next hg
      exact .moved rfl hf ‹_› (.bodyMet hb ‹_›)
    · cases hg

theorem execUnescEscape_effect (h : execUnescEscape n s = .next t) : RxEffect n [] s t := by
  obtain ⟨f, hf, hg⟩ := whenFeeding_next h
  split at hg
  · split at hg
    · cases hg; subst ‹_ = ESCAPE›
      exact .moved rfl hf ‹_› (.symbolMet [ESCAPE] (by simp [unescStep]))
    · cases hg
  · cases hg

theorem execUnescLiteral_effect (h : execUnescLiteral n b s = .next t) : RxEffect n [] s t := by
  unfold execUnescLiteral at h
  split at h
  · cases h
  · obtain ⟨f, hf, hg⟩ := whenFeeding_next h
    split at hg
    · split at hg
      · cases hg; subst ‹_ = b›
        exact .moved rfl hf ‹_› (.symbolMet [_] (by simp [unescStep, *]))
      · cases hg
    · cases hg

theorem execUnescComplement_effect (h : execUnescComplement n b s = .next t) : RxEffect n [] s t := by
  obtain ⟨f, hf, hg⟩ := whenFeeding_next h
  split at hg
  · split at hg
    · cases hg; subst ‹_ = b›
      exact .moved rfl hf ‹_› (.symbolMet [_] rfl)
    · cases hg
  · cases hg

theorem execPair_effect (h : execPair n b s = .next t) : RxEffect n [] s t := by
  unfold execPair at h
  split at h
  · cases h
  · obtain ⟨f, hf, hg⟩ := whenFeeding_next h
    split at hg
    · split at hg
      · obtain ⟨rfl, rfl⟩ := ‹_ ∧ _›
        cases hg
        exact .moved rfl hf ‹_› (.symbolMet [ESCAPE, _] (by simp [unescStep]))
      · cases hg
    · cases hg

theorem execPairIllegal_effect (h : execPairIllegal n s = .next t) : RxEffect n [] s t := by
  obtain ⟨f, hf, hg⟩ := whenFeeding_next h
  split at hg
  · split at hg
    · cases hg; subst ‹_ = ESCAPE›; exact .emitted rfl hf ‹_›
    · cases hg
  · cases hg

/-! ### All instructions -/

/-- A Reassembler's instruction that does not construct it has one of the effects of `RxEffect`. -/
theorem exec_effect {i : Instr} (h : exec i s = .next t) (hi : i.target = some n) (hc : ¬constructs i n) :
    RxEffect n (incoming i) s t := by
  cases i with
  | encode | encStart | encPlain | encStuffStart | encStuffEnd | encStuffEscape | encEnd => cases hi
  | reset m => cases hi; exact absurd (.inl rfl) hc
  | decode m x => cases hi; exact absurd (.inr ⟨x, rfl⟩) hc
  | feed m x => cases hi; exact execFeed_effect h
  | rxAppend m x => cases hi; exact execRxAppend_effect h
  | rxScanStart m => cases hi; exact execRxScanStart_effect h
  | rxScanEnd m => cases hi; exact execRxScanEnd_effect h
  | rxExtract m => cases hi; exact execRxExtract_effect h
  | rxUnescape m => cases hi; exact execRxUnescape_effect h
  | rxEmitErr m => cases hi; exact execRxEmitErr_effect h
  | rxEmitOk m => cases hi; exact execRxEmitOk_effect h
  | rxReturn m => cases hi; exact execRxReturn_effect h
  | scanStart m => cases hi; exact execScanStart_effect h
  | scanSkip m x => cases hi; exact execScanSkip_effect h
  | scanEnd m => cases hi; exact execScanEnd_effect h
  | scanBody m x => cases hi; exact execScanBody_effect h
  | unescEscape m => cases hi; exact execUnescEscape_effect h
  | unescLiteral m x => cases hi; exact execUnescLiteral_effect h
  | unescComplement m x => cases hi; exact execUnescComplement_effect h
  | pair m x => cases hi; exact execPair_effect h
  | pairIllegal m => cases hi; exact execPairIllegal_effect h
  | byteHuntSkip m x => cases hi; exact execByteHuntSkip_effect h
  | byteHuntStart m => cases hi; exact execByteHuntStart_effect h
  | byteCollectBody m x => cases hi; exact execByteCollectBody_effect h
  | byteCollectEnd m => cases hi; exact execByteCollectEnd_effect h

/-- What constructs a Reassembler anew leaves it just constructed (RESET), or fed from there (decode). -/
theorem exec_constructs {i : Instr} (h : exec i s = .next t) (hc : constructs i n) :
    t = s.construct n ∨ RxEffect n (incoming i) (s.construct n) t := by
  rcases hc with rfl | ⟨x, rfl⟩
  · exact .inl (Host.Outcome.next.inj h).symm
  · cases h
    exact .inr (feedChunk_effect (by simp [Ready, Reassembler.fresh]))

/-- Everything an instruction that answers a next state can do. -/
theorem exec_cases {i : Instr} (h : exec i s = .next t) :
    (i.target = none ∧ ∃ l o, t = { s with encOut := s.encOut ++ l, payloadOpen := o }) ∨
      ∃ n, i.target = some n ∧ ((¬constructs i n ∧ RxEffect n (incoming i) s t) ∨
        (constructs i n ∧ (t = s.construct n ∨ RxEffect n (incoming i) (s.construct n) t))) := by
  cases hi : i.target with
  | none => exact .inl ⟨rfl, exec_encoder_next hi h⟩
  | some n =>
    refine .inr ⟨n, rfl, ?_⟩
    by_cases hc : constructs i n
    · exact .inr ⟨hc, exec_constructs h hc⟩
    · exact .inl ⟨hc, exec_effect h hi hc⟩

end

/-! ### What every effect leaves alone -/

section
variable {n : RxId} {c : List Byte} {s t : State}

theorem RxEffect.cfg_eq (h : RxEffect n c s t) : t.cfg = s.cfg := by
  cases h <;> rfl

theorem RxEffect.rx_other (h : RxEffect n c s t) {m : RxId} (hm : m ≠ n) : t.rx m = s.rx m := by
  cases h <;> simp [hm]

theorem State.setRx_bankWf (n : RxId) (x : Reassembler) (h : bankWf s.rxs = true) :
    bankWf (s.setRx n x).rxs = true :=
  bankPut_wf _ _ _ h

theorem RxEffect.keeps_bankWf (h : RxEffect n c s t) (hs : bankWf s.rxs = true) : bankWf t.rxs = true := by
  cases h with
  | faultAgain => exact hs
  | overflow | fed | held | collected | moved | emitted | returned => exact State.setRx_bankWf _ _ hs
  | appended | extracted => exact State.setRx_bankWf _ _ (State.setRx_bankWf _ _ hs)

end

/-! ### One step of the machine -/

section
variable {n : RxId} {s t : State}

theorem runFetched_next {go : Instr → Result} {x : Fetched} (h : runFetched go x = .next t) :
    ∃ i, go i = .next t := by
  unfold runFetched at h
  split at h
  · cases h
  · split at h
    · exact ⟨_, h⟩
    · cases h

theorem fetchByte_next {go : Fetched → Result} (h : fetchByte n s go = .next t) : ∃ x, go x = .next t := by
  obtain ⟨f, -, hg⟩ := whenFeeding_next h
  split at hg
  · obtain ⟨b, -, hb⟩ := lookAt_next hg
    exact ⟨_, hb⟩
  · obtain ⟨b, -, hb⟩ := lookAt_next hg
    exact ⟨_, hb⟩
  · exact ⟨_, hg⟩
  · exact ⟨_, hg⟩
  · cases hg
  · cases hg
  · cases hg

theorem fetchSymbol_next {go : Fetched → Result} (h : fetchSymbol n s go = .next t) : ∃ x, go x = .next t := by
  obtain ⟨f, -, hg⟩ := whenFeeding_next h
  split at hg
  · exact ⟨_, hg⟩
  · cases hg

/-- A request that is served runs one instruction. -/
theorem serve_next {r : Request} (h : serve exec r s = .next t) : ∃ i, exec i s = .next t := by
  unfold serve at h
  cases r with
  | call i =>
    dsimp only at h
    split at h
    · exact ⟨i, h⟩
    · cases h
  | sop | payloadByte | eop | rxByte => exact runFetched_next h
  | nextByte =>
    obtain ⟨x, hx⟩ := fetchByte_next h
    exact runFetched_next hx
  | nextSymbol =>
    obtain ⟨x, hx⟩ := fetchSymbol_next h
    exact runFetched_next hx

/-- A step leaves the block as it is, or takes a request from the queue and runs one instruction. -/
theorem step_next (h : step s = .next t) : t = s ∨ ∃ i q, exec i { s with pending := q } = .next t := by
  unfold step at h
  split at h
  · exact .inl (Host.Outcome.next.inj h).symm
  · obtain ⟨i, hi⟩ := serve_next h
    exact .inr ⟨i, _, hi⟩

end

end Sys2Proof.Machine
end

section
/-!
SUPPORT. FEED on a buffer under either kind of BUF_CAP: what is left is the end of what came in, it is what the loop leaves
of the whole (R101, R134), and it fits.
-/

namespace Sys2Proof.Machine

section
variable {b c left : List Byte} {rs : List DecodeResult}

/-- The loop on a buffer to which more is appended is the loop on the buffer, then the loop on what it left and what was
appended. -/
theorem Drains.append {left' : List Byte} {rs' : List DecodeResult} (h : Drains b rs left)
    (h' : Drains (left ++ c) rs' left') : Drains (b ++ c) (rs ++ rs') left' := by
  induction h with
  | noStart | noEnd => exact h'
  | frame hg hu hr _ ih =>
    rw [List.append_assoc, List.cons_append]
    exact .frame hg hu hr (ih h')

theorem drain_append (b c : List Byte) : drain (b ++ c) =
    ((drain b).1 ++ (drain ((drain b).2 ++ c)).1, (drain ((drain b).2 ++ c)).2) :=
  drains_iff.mp ((drains_drain b).append (drains_drain _))

/-- The loop removes a front part of the buffer and nothing else (R23, R46). -/
theorem Drains.left_suffix (h : Drains b rs left) : left <:+ b := by
  induction h with
  | noStart | noEnd => exact List.suffix_rfl
  | frame _ _ _ _ ih => exact ih.trans ((List.suffix_cons _ _).trans (List.suffix_append _ _))

theorem overCap_eq_false {cap : Option Nat} : overCap cap b = false ↔ ∀ k, cap = some k → b.length ≤ k := by
  cases cap <;> simp [overCap]

/-- One byte of a FEED under a finite BUF_CAP: what the loop leaves fits, and the FEED goes on from there. -/
theorem feedCapped_cons {k : Nat} {x : Byte} (h : feedCapped k b (x :: c) = some (rs, left)) :
    (drain (b ++ [x])).2.length ≤ k ∧
      ∃ rs', feedCapped k (drain (b ++ [x])).2 c = some (rs', left) ∧ rs = (drain (b ++ [x])).1 ++ rs' := by
  cases ho : overCap (some k) (drain (b ++ [x])).2 with
  | true => simp [feedCapped, feedAll, ho] at h
  | false =>
    simp only [feedCapped, feedAll, ho, Bool.false_eq_true, if_false] at h
    split at h
    · cases h
    · cases h
      exact ⟨overCap_eq_false.mp ho k rfl, _, ‹_›, rfl⟩

theorem feedCapped_suffix {k : Nat} (h : feedCapped k b c = some (rs, left)) : left <:+ b ++ c := by
  induction c generalizing b rs with
  | nil => cases h; simp
  | cons x c ih =>
    obtain ⟨-, rs', h', -⟩ := feedCapped_cons h
    have hx : (drain (b ++ [x])).2 <:+ b ++ [x] := (drains_drain _).left_suffix
    have hc : (drain (b ++ [x])).2 ++ c <:+ b ++ [x] ++ c := List.suffix_append_self_iff.mpr hx
    simpa using (ih h').trans hc

theorem feedCapped_length {k : Nat} (hb : b.length ≤ k) (h : feedCapped k b c = some (rs, left)) :
    left.length ≤ k := by
  induction c generalizing b rs with
  | nil => cases h; exact hb
  | cons x c ih =>
    obtain ⟨hx, rs', h', -⟩ := feedCapped_cons h
    exact ih hx h'

/-- Byte by byte the loop gives what it gives on the whole, when nothing overflows (R101). -/
theorem feedCapped_drain {k : Nat} (hb : Settled b) (h : feedCapped k b c = some (rs, left)) :
    drain (b ++ c) = (rs, left) := by
  induction c generalizing b rs with
  | nil => cases h; simpa using drain_settled hb
  | cons x c ih =>
    obtain ⟨-, rs', h', rfl⟩ := feedCapped_cons h
    rw [List.append_cons, drain_append, ih (drain_left_settled _) h']

theorem feedBuf_suffix {cap : Option Nat} (h : feedBuf cap b c = some (rs, left)) : left <:+ b ++ c := by
  cases cap with
  | none =>
    have hd : drain (b ++ c) = (rs, left) := Option.some.inj h
    exact (drains_iff.mpr hd).left_suffix
  | some k => exact feedCapped_suffix h

theorem feedBuf_fits {cap : Option Nat} (hb : overCap cap b = false) (h : feedBuf cap b c = some (rs, left)) :
    overCap cap left = false := by
  rw [overCap_eq_false] at hb ⊢
  rintro k rfl
  exact feedCapped_length (hb k rfl) h

theorem feedBuf_drain {cap : Option Nat} (hb : Settled b) (h : feedBuf cap b c = some (rs, left)) :
    drain (b ++ c) = (rs, left) := by
  cases cap with
  | none => exact Option.some.inj h
  | some k => exact feedCapped_drain hb h

end

end Sys2Proof.Machine
end

section
/-!
SUPPORT. The invariant of one Reassembler at each place of a FEED, and of the block: every effect keeps it.
-/

namespace Sys2Proof.Machine

/-! ### The places of the loop -/

section
variable {buf : List Byte} {v b : Byte} {i j k pos : Nat}

theorem take_succ_of_getElem? (h : buf[pos]? = some b) : buf.take (pos + 1) = buf.take pos ++ [b] := by
  rw [List.take_add_one, h]
  rfl

theorem lt_length_of_getElem? (h : buf[pos]? = some b) : pos < buf.length :=
  (List.getElem?_eq_some_iff.mp h).1

/-- A scan that has met no `v` from `k` on and stands before a `v` has found it. -/
theorem find_eq_of_met (hk : k ≤ pos) (hv : buf[pos]? = some v) (hn : v ∉ (buf.take pos).drop k) :
    find v buf k = some pos := by
  have hl := lt_length_of_getElem? hv
  have hs : buf.drop k = (buf.take pos).drop k ++ v :: buf.drop (pos + 1) := by
    rw [← List.drop_append_of_le_length (by simp; omega), List.append_cons, ← take_succ_of_getElem? hv,
      List.take_append_drop]
  rw [find_from, hs, find_append hn]
  simp
  omega

theorem find_lt (h : find v buf 0 = some i) : i < buf.length := by
  obtain ⟨g, t, rfl, -, rfl⟩ := find_some h
  simp

/-- Both markers found: what one pass of the loop takes. -/
theorem extract_found (hs : find START buf 0 = some i) (he : find END buf (i + 1) = some j) :
    extract buf = some (slice buf i j, removeThrough buf j) := by
  simp only [extract, hs, he]

theorem passInv_startFound (results : List DecodeResult) (h : find START buf 0 = some i) :
    passInv buf (some { results := results, pass := .scanEnd i (i + 1) }) :=
  ⟨h, Nat.lt_succ_self i, find_lt h, by simp⟩

/-- Every move of a FEED in progress keeps what holds at its places. -/
theorem PassMove.keeps_passInv {p q : Pass} (hm : PassMove buf p q) {results : List DecodeResult}
    (h : passInv buf (some { results := results, pass := p })) :
    passInv buf (some { results := results, pass := q }) := by
  cases hm with
  | noStart hs => exact .inl (find_none.mp hs)
  | startFound hs => exact passInv_startFound results hs
  | startMet hb =>
    obtain ⟨-, hn⟩ := h
    exact passInv_startFound results (find_eq_of_met (Nat.zero_le _) hb hn)
  | skipped hb hne =>
    obtain ⟨-, hn⟩ := h
    refine ⟨lt_length_of_getElem? hb, ?_⟩
    rw [take_succ_of_getElem? hb]
    simp [hn, hne.symm]
  | noEnd he =>
    obtain ⟨hs, -⟩ := h
    exact extract_none.mp (by simp only [extract, hs, he])
  | endFound he =>
    obtain ⟨hs, -⟩ := h
    exact ⟨hs, he⟩
  | endMet hb =>
    obtain ⟨hs, hlt, -, hn⟩ := h
    exact ⟨hs, find_eq_of_met hlt hb hn⟩
  | bodyMet hb hne =>
    obtain ⟨hs, hlt, hle, hn⟩ := h
    refine ⟨hs, Nat.lt_succ_of_lt hlt, lt_length_of_getElem? hb, ?_⟩
    rw [take_succ_of_getElem? hb, List.drop_append_of_le_length (by simp; omega)]
    simp [hn, hne.symm]
  | unescaped =>
    obtain ⟨seen, rfl, hu, -⟩ := h
    exact ⟨_, by rw [List.append_nil], by rwa [List.append_nil], by rw [interior_frame]⟩
  | symbolMet met hmet =>
    obtain ⟨seen, rfl, hu, hseen⟩ := h
    exact ⟨seen ++ met, by simp, by simpa using hu, by rw [unescFold_append, hseen, hmet]⟩

end

/-! ### One Reassembler -/

section
variable {cap : Option Nat} {buf : List Byte} {f : Feed}

theorem rxInv_idle : rxInv cap { fault := false, rxbuf := buf, feed := none } ↔
    Settled buf ∧ overCap cap buf = false := by
  rw [overCap_eq_false]
  constructor
  · rintro ⟨-, h⟩
    obtain ⟨hs, hl⟩ := h rfl
    rw [drain_settled hs] at hl
    exact ⟨hs, hl⟩
  · rintro ⟨hs, hl⟩
    exact ⟨nofun, fun _ => ⟨hs, by rwa [drain_settled hs]⟩⟩

theorem rxInv_feeding : rxInv cap { fault := false, rxbuf := buf, feed := some f } ↔
    passInv buf (some f) ∧ overCap cap (drain buf).2 = false := by
  rw [overCap_eq_false]
  exact ⟨fun h => h.2 rfl, fun h => ⟨nofun, fun _ => h⟩⟩

theorem rxInv_faulted (hc : cap ≠ none) : rxInv cap { fault := true, rxbuf := buf, feed := none } :=
  ⟨fun _ => ⟨rfl, hc⟩, nofun⟩

theorem rxInv_fresh : rxInv cap Reassembler.fresh :=
  rxInv_idle.mpr ⟨.inl (by simp), by simp [overCap_eq_false]⟩

/-- A Reassembler that meets its invariant while a FEED is in progress is not faulted. -/
theorem rxInv.not_fault {x : Reassembler} (h : rxInv cap x) (hf : x.feed = some f) : x.fault = false := by
  cases hx : x.fault with
  | false => rfl
  | true =>
    obtain ⟨hn, -⟩ := h.1 hx
    rw [hn] at hf
    cases hf

/-- One more byte that completes no frame leaves a shape of R32. -/
theorem Settled.concat {b : Byte} (hs : Settled buf) (hb : START ∉ buf ∨ b ≠ END) : Settled (buf ++ [b]) := by
  rcases hs with hn | ⟨g, t, rfl, hg, ht⟩
  · by_cases h : b = START
    · exact .inr ⟨buf, [], by rw [h], hn, by simp⟩
    · exact .inl (by simp [hn, Ne.symm h])
  · have hne : b ≠ END := hb.resolve_left (by simp)
    exact .inr ⟨g, t ++ [b], by simp, hg, by simp [ht, hne.symm]⟩

end

/-! ### The block -/

section
variable {n : RxId} {c : List Byte} {s t : State}

theorem Ready.rx_eq (h : Ready n s) : s.rx n = { fault := false, rxbuf := (s.rx n).rxbuf, feed := none } := by
  rw [← h.1, ← h.2]

theorem Ready.rxInv_iff {cap : Option Nat} (h : Ready n s) :
    rxInv cap (s.rx n) ↔ Settled (s.rx n).rxbuf ∧ overCap cap (s.rx n).rxbuf = false := by
  rw [h.rx_eq, rxInv_idle]

theorem rxInv.of_feeding {cap : Option Nat} {x : Reassembler} {f : Feed} (h : rxInv cap x) (hf : x.feed = some f) :
    passInv x.rxbuf (some f) ∧ overCap cap (drain x.rxbuf).2 = false := by
  have hx : x = { fault := false, rxbuf := x.rxbuf, feed := some f } := by
    rw [← h.not_fault hf, ← hf]
  rw [hx] at h
  exact rxInv_feeding.mp h

/-- Every effect on a Reassembler keeps its invariant. -/
theorem RxEffect.keeps_rxInv (he : RxEffect n c s t) (hi : rxInv s.cfg.bufCap (s.rx n)) :
    rxInv s.cfg.bufCap (t.rx n) := by
  cases he with
  | faultAgain => exact hi
  | overflow hr hc =>
    rw [State.takeOverflow_rx_same]
    exact rxInv_faulted hc
  | fed hr hb =>
    obtain ⟨hs, hl⟩ := hr.rxInv_iff.mp hi
    have hleft := drain_left_settled ((s.rx n).rxbuf ++ c)
    rw [feedBuf_drain hs hb] at hleft
    simp only [State.deliver_rx, State.setBuf_rx_same, hr.1, hr.2]
    exact rxInv_idle.mpr ⟨hleft, feedBuf_fits hl hb⟩
  | @appended out hr hb =>
    obtain ⟨hs, hl⟩ := hr.rxInv_iff.mp hi
    obtain ⟨rs, left⟩ := out
    simp only [State.setFeed_rx_same, State.setBuf_rx_same, hr.1]
    refine rxInv_feeding.mpr ⟨⟨Nat.zero_le _, by simp⟩, ?_⟩
    rw [feedBuf_drain hs hb]
    exact feedBuf_fits hl hb
  | held hr hc hb ho =>
    obtain ⟨hs, -⟩ := hr.rxInv_iff.mp hi
    simp only [State.deliver_rx, State.setBuf_rx_same, hr.1, hr.2]
    subst hc
    exact rxInv_idle.mpr ⟨hs.concat hb, ho⟩
  | collected hr =>
    simp only [State.deliver_rx, State.setBuf_rx_same, hr.1, hr.2]
    exact rxInv_fresh
  | @moved f p q _ hf hp hm =>
    obtain ⟨results, pass⟩ := f
    subst hp
    obtain ⟨hpass, hl⟩ := hi.of_feeding hf
    simp only [State.setPass_rx_same, hi.not_fault hf]
    exact rxInv_feeding.mpr ⟨hm.keeps_passInv hpass, hl⟩
  | @extracted f i j _ hf hp =>
    obtain ⟨results, pass⟩ := f
    subst hp
    obtain ⟨⟨hs, he⟩, hl⟩ := hi.of_feeding hf
    have hx := extract_found hs he
    obtain ⟨g, u, -, -, hu, hframe⟩ := extract_some hx
    rw [drain_eq, hx] at hl
    simp only [State.setPass_rx_same, State.setBuf_rx_same, hi.not_fault hf]
    rw [hframe, interior_frame]
    exact rxInv_feeding.mpr ⟨⟨[], rfl, hu, rfl⟩, hl⟩
  | emitted _ hf =>
    obtain ⟨-, hl⟩ := hi.of_feeding hf
    simp only [State.emitResult_rx_same, hi.not_fault hf]
    exact rxInv_feeding.mpr ⟨⟨Nat.zero_le _, by simp⟩, hl⟩
  | @returned f _ hf hp =>
    obtain ⟨results, pass⟩ := f
    subst hp
    obtain ⟨(hs : Settled _), hl⟩ := hi.of_feeding hf
    rw [drain_settled hs] at hl
    simp only [State.deliver_rx, State.setFeed_rx_same, hi.not_fault hf]
    exact rxInv_idle.mpr ⟨hs, hl⟩

theorem RxEffect.keeps_blockInv (he : RxEffect n c s t) (hb : BlockInv s) : BlockInv t := by
  obtain ⟨hwf, hrx⟩ := hb
  refine ⟨he.keeps_bankWf hwf, fun m => ?_⟩
  rw [he.cfg_eq]
  by_cases hm : m = n
  · subst hm
    exact he.keeps_rxInv (hrx m)
  · rw [he.rx_other hm]
    exact hrx m

theorem BlockInv.construct (hb : BlockInv s) (n : RxId) : BlockInv (s.construct n) := by
  obtain ⟨hwf, hrx⟩ := hb
  refine ⟨State.setRx_bankWf _ _ hwf, fun m => ?_⟩
  by_cases hm : m = n
  · subst hm
    rw [State.construct_rx_same]
    exact rxInv_fresh
  · rw [State.construct_rx_other _ _ hm]
    exact hrx m

theorem exec_keeps_blockInv {i : Instr} (h : exec i s = .next t) (hb : BlockInv s) : BlockInv t := by
  rcases exec_cases h with ⟨-, l, o, rfl⟩ | ⟨n, -, ⟨-, he⟩ | ⟨-, rfl | he⟩⟩
  · exact hb
  · exact he.keeps_blockInv hb
  · exact hb.construct n
  · exact he.keeps_blockInv (hb.construct n)

end

/-- Settles O53: a step runs at most one instruction, and each keeps the invariant, whatever its effect. -/
theorem invariantKept : Obligations.InvariantKept := by
  intro s t hb h
  rcases step_next h with rfl | ⟨i, q, hi⟩
  · exact hb
  · exact exec_keeps_blockInv hi hb

/-- Settles O52: after reset no Reassembler is listed, and one just constructed meets its invariant. -/
theorem invariantAtReset : Obligations.InvariantAtReset := by
  refine ⟨rfl, fun n => ?_⟩
  rw [State.reset_rx]
  exact rxInv_fresh

/-- Settles O6: an unlisted Reassembler is just constructed. -/
theorem resetValues : Obligations.ResetValues :=
  ⟨State.reset_rx, rfl, rfl, rfl⟩

end Sys2Proof.Machine
end

section
/-!
SUPPORT. What holds of every instruction: the other Reassemblers, the buffer as a queue, and FAULT.
-/

namespace Sys2Proof.Machine

section
variable {n : RxId} {c : List Byte} {s t : State}

/-- An effect that leaves no fault leaves the end of the old buffer and what came in. -/
theorem RxEffect.rxbuf_suffix (h : RxEffect n c s t) (hf : (t.rx n).fault = false) :
    (t.rx n).rxbuf <:+ (s.rx n).rxbuf ++ c := by
  cases h with
  | faultAgain hs => rw [State.deliver_rx, hs] at hf; cases hf
  | overflow => rw [State.takeOverflow_rx_same] at hf; cases hf
  | fed _ hb => simpa using feedBuf_suffix hb
  | appended | held => simp
  | collected => simp
  | moved hc | emitted hc | returned hc => simp [hc]
  | extracted hc => simpa [hc, removeThrough] using List.drop_suffix _ _

/-- No effect clears FAULT. -/
theorem RxEffect.keeps_fault (h : RxEffect n c s t) (hf : (s.rx n).fault = true) : (t.rx n).fault = true := by
  cases h with
  | overflow => simp
  | faultAgain | fed | appended | held | collected | moved | extracted | emitted | returned => simpa using hf

/-- FAULT newly set is BufferOverflow, under a finite BUF_CAP, and it is what was handed over. -/
theorem RxEffect.fault_set (h : RxEffect n c s t) (hs : (s.rx n).fault = false) (ht : (t.rx n).fault = true) :
    s.cfg.bufCap ≠ none ∧ t.rxOut = s.rxOut ++ [{ rx := n, reply := .bufferOverflow }] := by
  cases h with
  | overflow _ hc => exact ⟨hc, by simp⟩
  | faultAgain | fed | appended | held | collected | moved | extracted | emitted | returned => simp [hs] at ht

/-- An instruction leaves every Reassembler alone but the one it acts on. -/
theorem exec_rx_other {i : Instr} (h : exec i s = .next t) {m : RxId} (hm : i.target ≠ some m) :
    t.rx m = s.rx m := by
  rcases exec_cases h with ⟨-, l, o, rfl⟩ | ⟨n, hi, he⟩
  · rfl
  · have hne : m ≠ n := fun e => hm (by rw [hi, e])
    rcases he with ⟨-, he⟩ | ⟨-, rfl | he⟩
    · exact he.rx_other hne
    · exact State.construct_rx_other _ _ hne
    · rw [he.rx_other hne, State.construct_rx_other _ _ hne]

end

/-- Settles O47: the effects on a Reassembler, its construction and the Encoder's writes leave the others alone. -/
theorem reassemblersIsolated : Obligations.ReassemblersIsolated := by
  intro i s t h m hm
  have hrx := exec_rx_other h hm
  exact ⟨hrx, fun a => by rw [hrx]⟩

/-- Settles O49: what an effect leaves is the end of the old buffer and what came in. -/
theorem bufferDiscipline : Obligations.BufferDiscipline := by
  intro i s t n h hi hc hf
  exact ⟨_, Nat.sub_le _ _, List.suffix_iff_eq_drop.mp ((exec_effect h hi hc).rxbuf_suffix hf)⟩

/-- Settles O51: no effect clears FAULT, and the one that sets it is BufferOverflow; a Reassembler just constructed is
not faulted. -/
theorem faultOnlyByOverflow : Obligations.FaultOnlyByOverflow := by
  intro i s t n h
  by_cases hi : i.target = some n
  · by_cases hc : constructs i n
    · refine ⟨fun _ hn => absurd hc hn, fun _ ht => ⟨hi, ?_⟩⟩
      rcases exec_constructs h hc with rfl | he
      · simp [Reassembler.fresh] at ht
      · exact he.fault_set (by simp [Reassembler.fresh]) ht
    · have he := exec_effect h hi hc
      exact ⟨fun hs _ => he.keeps_fault hs, fun hs ht => ⟨hi, he.fault_set hs ht⟩⟩
  · rw [exec_rx_other h hi]
    exact ⟨fun hs _ => hs, fun hs ht => by rw [hs] at ht; cases ht⟩

/-! ### The order of the steps -/

theorem whenFeeding_none {n : RxId} {s : State} (h : (s.rx n).feed = none) (go : Feed → Result) :
    whenFeeding n s go = .refused .noFeedInProgress := by
  simp [whenFeeding, h]

/-- Settles O35: with no FEED in progress the guard of the later steps refuses; with one, the step's own place does. -/
theorem stepsOutOfOrderRefused : Obligations.StepsOutOfOrderRefused := by
  intro n s
  constructor
  · intro h i hi
    simp only [laterSteps, List.mem_cons, List.not_mem_nil, or_false] at hi
    rcases hi with rfl | rfl | rfl | rfl | rfl | rfl | rfl <;> exact whenFeeding_none h _
  · intro f hf
    refine ⟨fun hp => ?_, fun hp => ?_, fun hp => ?_, fun hp => ?_, fun hp => ?_, fun hp => ?_, fun hp => ?_⟩
    all_goals
      refine (whenFeeding_some hf _).trans ?_
      split
      · exact absurd ‹_› (by apply hp)
      · rfl

end Sys2Proof.Machine
end

section
/-!
SUPPORT. What has no meaning on a Reassembler with a FEED in progress: an operation that overlaps it, and a read outside
RXBUF.
-/

namespace Sys2Proof.Machine

section
variable {n : RxId} {s : State}

theorem whenIdle_feeding {f : Feed} (hn : (s.rx n).fault = false) (hf : (s.rx n).feed = some f) (go : Result) :
    whenIdle n s go = .refused .overlappingFeed := by
  simp [whenIdle, hn, hf]

theorem lookAt_outside {pos : Nat} (h : (s.rx n).rxbuf.length ≤ pos) (go : Byte → Result) :
    lookAt n pos s go = .fault (.noSuchAddress n pos) := by
  simp [lookAt, readByte, h]

end

/-- Settles O19: each of these rows goes through the guard of an idle Reassembler; the byte-class rows look at their
operand before it. -/
theorem overlapRefused : Obligations.OverlapRefused := by
  intro n s f hn hf i hi
  have hguard := whenIdle_feeding hn hf
  rcases hi with ⟨c, rfl⟩ | ⟨c, rfl⟩ | ⟨b, hb, rfl⟩ | rfl | ⟨b, hb, rfl⟩ | rfl
  · exact hguard _
  · exact hguard _
  · exact (if_neg hb).trans (hguard _)
  · exact hguard _
  · exact (if_neg hb).trans (hguard _)
  · exact hguard _

/-- Settles O38: the scan rows look at the byte through `lookAt`; the byte-class rows look at their operand before it. -/
theorem noReadOutsideBuffer : Obligations.NoReadOutsideBuffer := by
  intro n s rs pos first hpos
  have hlook := lookAt_outside hpos
  refine ⟨fun hf => ⟨?_, fun b hb => ?_⟩, fun hf => ⟨?_, fun b hb => ?_⟩⟩
  · exact (whenFeeding_some hf _).trans (hlook _)
  · exact (if_neg hb).trans ((whenFeeding_some hf _).trans (hlook _))
  · exact (whenFeeding_some hf _).trans (hlook _)
  · exact (if_neg hb).trans ((whenFeeding_some hf _).trans (hlook _))

end Sys2Proof.Machine
end

section
/-!
SUPPORT. Packets (R61 to R64, R75): the interior of a packet is exactly a sequence of canonical symbols, where each marker
stands in it, and what FEED of a packet gives.
-/

namespace Sys2Proof.Machine

/-! ### The interior of a packet -/

theorem stuff1_of_data {d : Byte} (hs : d ≠ START) (he : d ≠ END) (hx : d ≠ ESCAPE) : stuff1 d = [d] := by
  simp [stuff1, special, hs, he, hx]

theorem stuff1_complement {c : Byte} (hc : c = 0xFE ∨ c = 0xE5 ∨ c = 0xE4) : stuff1 (~~~c) = [ESCAPE, c] := by
  rcases hc with rfl | rfl | rfl <;> decide

theorem complement_of_special {d : Byte} (h : special d = true) : ~~~d = 0xFE ∨ ~~~d = 0xE5 ∨ ~~~d = 0xE4 := by
  revert d
  decide

theorem canonicalSymbols_stuff (p : List Byte) : CanonicalSymbols (p.flatMap stuff1) p := by
  induction p with
  | nil => exact .nil
  | cons d p ih =>
    rw [List.flatMap_cons]
    by_cases hd : special d = true
    · have hpair : CanonicalSymbols (ESCAPE :: ~~~d :: p.flatMap stuff1) (~~~(~~~d) :: p) :=
        .pair (complement_of_special hd) ih
      rw [BitVec.not_not] at hpair
      rwa [stuff1, if_pos hd]
    · obtain ⟨⟨hs, he⟩, hx⟩ : (d ≠ START ∧ d ≠ END) ∧ d ≠ ESCAPE := by simpa [special] using hd
      rw [stuff1_of_data hs he hx]
      exact .data hs he hx ih

/-- The canonical symbols of a payload are what the Encoder makes of it (R62, R75). -/
theorem canonicalSymbols_iff {u p : List Byte} : CanonicalSymbols u p ↔ u = p.flatMap stuff1 := by
  constructor
  · intro h
    induction h with
    | nil => rfl
    | data hs he hx _ ih => rw [List.flatMap_cons, stuff1_of_data hs he hx, ih]; rfl
    | pair hc _ ih => rw [List.flatMap_cons, stuff1_complement hc, ih]; rfl
  · rintro rfl
    exact canonicalSymbols_stuff p

section
variable {u p p' : List Byte}

theorem CanonicalSymbols.symbols (h : CanonicalSymbols u p) : Symbols u p := by
  induction h with
  | nil => exact .nil
  | data _ _ hx _ ih => exact .literal hx ih
  | pair _ _ ih => exact .pair ih

/-- No payload but one unescapes from the same interior. -/
theorem Symbols.payload_unique (h : Symbols u p) (h' : Symbols u p') : p = p' := by
  have hf := unescFold_symbols h
  rw [unescFold_symbols h'] at hf
  exact (congrArg Prod.fst hf).symm

theorem canonicalSecond_not_marker {c : Byte} (hc : c = 0xFE ∨ c = 0xE5 ∨ c = 0xE4) :
    c ≠ START ∧ c ≠ END ∧ c ≠ ESCAPE := by
  rcases hc with rfl | rfl | rfl <;> decide

theorem CanonicalSymbols.markers_not_mem (h : CanonicalSymbols u p) : START ∉ u ∧ END ∉ u := by
  induction h with
  | nil => simp
  | data hs he _ _ ih => simp [ih, hs.symm, he.symm]
  | pair hc _ ih =>
    obtain ⟨hs, he, -⟩ := canonicalSecond_not_marker hc
    have hx : START ≠ ESCAPE ∧ END ≠ ESCAPE := by decide
    simp [ih, hs.symm, he.symm, hx]

/-- R63: in an interior ESCAPE is always the first byte of a canonical pair. -/
theorem CanonicalSymbols.after_escape (h : CanonicalSymbols u p) :
    ∀ {i : Nat}, u[i]? = some ESCAPE → ∃ c : Byte, u[i + 1]? = some c ∧ (c = 0xFE ∨ c = 0xE5 ∨ c = 0xE4) := by
  induction h with
  | nil => simp
  | data _ _ hx _ ih =>
    intro i hi
    cases i with
    | zero => exact absurd (Option.some.inj hi) hx
    | succ i => exact ih hi
  | @pair c _ _ hc _ ih =>
    intro i hi
    match i with
    | 0 => exact ⟨c, rfl, hc⟩
    | 1 =>
      obtain ⟨-, -, hx⟩ := canonicalSecond_not_marker hc
      exact absurd (Option.some.inj hi) hx
    | i + 2 => exact ih hi

end

/-! ### Packets -/

theorem packet_eq_iff {p q : List Byte} :
    packet p = q ↔ ∃ u, q = START :: u ++ [END] ∧ CanonicalSymbols u p := by
  constructor
  · rintro rfl
    exact ⟨_, rfl, canonicalSymbols_stuff p⟩
  · rintro ⟨u, rfl, hu⟩
    rw [canonicalSymbols_iff.mp hu]
    rfl

theorem encodes_iff {p q : List Byte} : Encodes p q ↔ ∃ u, q = START :: u ++ [END] ∧ CanonicalSymbols u p := by
  rw [← packet_eq_iff]
  constructor
  · intro h
    have hout : State.reset.emit (packet p) = { State.reset with encOut := [q] } := Host.Outcome.next.inj (h _)
    simpa using congrArg State.encOut hout
  · rintro rfl s
    rfl

theorem framed_extract (u : List Byte) :
    (START :: u ++ [END]).extract 1 ((START :: u ++ [END]).length - 1) = u := by
  simp

/-- A sequence of two bytes or more between START and END is framed. -/
theorem exists_framed_iff {q : List Byte} : (∃ u, q = START :: u ++ [END]) ↔
    2 ≤ q.length ∧ q[0]? = some START ∧ q[q.length - 1]? = some END := by
  constructor
  · rintro ⟨u, rfl⟩
    simp
  · rintro ⟨hl, hs, he⟩
    match q, List.eq_nil_or_concat' q.tail with
    | a :: t, .inl ht =>
      obtain rfl : t = [] := ht
      simp at hl
    | a :: t, .inr ⟨u, b, ht⟩ =>
      obtain rfl : t = u ++ [b] := ht
      obtain rfl : a = START := by simpa using hs
      obtain rfl : b = END := by simpa using he
      exact ⟨u, rfl⟩

/-- FEED that overflows nothing delivers its results and changes RXBUF, and nothing else (R90, R100). -/
theorem feeds_of_feedBuf {n : RxId} {c left : List Byte} {s : State} {rs : List DecodeResult} (hr : Ready n s)
    (hb : feedBuf s.cfg.bufCap (s.rx n).rxbuf c = some (rs, left)) : Feeds n c s rs left := by
  have hc : feedChunk n c s = (s.setBuf n left).deliver n (.results rs) := by simp only [feedChunk, hb]
  refine ⟨_, (whenIdle_ready hr _).trans (congrArg _ hc), ?_, rfl, rfl, rfl, rfl, rfl, rfl, fun m hm => ?_⟩
  · simp only [State.deliver_rx, State.setBuf_rx_same, hr.1, hr.2]
  · simp [hm]

/-- A packet gives its payload and leaves nothing (R74). -/
theorem drains_packet {u p : List Byte} (hu : CanonicalSymbols u p) : Drains (START :: u ++ [END]) [.ok p] [] :=
  .frame (g := []) (by simp) hu.markers_not_mem.2 (.inl ⟨p, hu.symbols, rfl⟩) (.noStart (by simp))

/-- Settles O11: a packet is a canonical interior between START and END; its interior has one payload, and the loop on a
fresh buffer delivers it. -/
theorem canonicalPacketRecognised : Obligations.CanonicalPacketRecognised := by
  refine ⟨fun q => ?_, fun p p' q h h' => ?_, fun p q h n => ?_⟩
  · simp only [encodes_iff]
    constructor
    · rintro ⟨p, u, rfl, hu⟩
      obtain ⟨hl, hs, he⟩ := exists_framed_iff.mp ⟨u, rfl⟩
      exact ⟨hl, hs, he, p, by rwa [framed_extract]⟩
    · rintro ⟨hl, hs, he, p, hu⟩
      obtain ⟨u, rfl⟩ := exists_framed_iff.mpr ⟨hl, hs, he⟩
      rw [framed_extract] at hu
      exact ⟨p, u, rfl, hu⟩
  · obtain ⟨u, rfl, hu⟩ := encodes_iff.mp h
    obtain ⟨v, hv, hu'⟩ := encodes_iff.mp h'
    obtain rfl : u = v := by simpa using hv
    exact hu.symbols.payload_unique hu'.symbols
  · obtain ⟨u, rfl, hu⟩ := encodes_iff.mp h
    refine feeds_of_feedBuf (by simp [Ready, Reassembler.fresh]) ?_
    rw [State.reset_rx]
    exact congrArg some (drains_iff.mp (drains_packet hu))

/-! ### The markers -/

theorem getElem?_cons_eq_head_iff {v : Byte} {l : List Byte} (h : v ∉ l) (i : Nat) :
    (v :: l)[i]? = some v ↔ i = 0 := by
  cases i with
  | zero => simp
  | succ i => simpa using fun hi => h (List.mem_of_getElem? hi)

theorem getElem?_concat_eq_last_iff {v : Byte} {l : List Byte} (h : v ∉ l) (i : Nat) :
    (l ++ [v])[i]? = some v ↔ i = l.length := by
  rw [List.getElem?_append]
  split
  · exact iff_of_false (fun hi => h (List.mem_of_getElem? hi)) (by omega)
  · rw [getElem?_cons_eq_head_iff (by simp)]
    omega

/-- R64: an ESCAPE of a packet stands in the interior, with the second byte of its pair behind it. -/
theorem escape_in_packet {u p : List Byte} {i : Nat} (hu : CanonicalSymbols u p)
    (hi : (START :: u ++ [END])[i]? = some ESCAPE) : 0 < i ∧ i + 2 < (START :: u ++ [END]).length ∧
      ∃ c : Byte, (START :: u ++ [END])[i + 1]? = some c ∧ (c = 0xFE ∨ c = 0xE5 ∨ c = 0xE4) := by
  have hs : START ≠ ESCAPE := by decide
  have he : END ≠ ESCAPE := by decide
  cases i with
  | zero => exact absurd (Option.some.inj hi) hs
  | succ j =>
    rw [List.cons_append, List.getElem?_cons_succ, List.getElem?_append] at hi
    split at hi
    · obtain ⟨c, hc, hcan⟩ := hu.after_escape hi
      have hj := lt_length_of_getElem? hc
      refine ⟨Nat.succ_pos j, by simp; omega, c, ?_, hcan⟩
      rwa [List.cons_append, List.getElem?_cons_succ, List.getElem?_append_left hj]
    · exact absurd (List.mem_singleton.mp (List.mem_of_getElem? hi)) he.symm

/-- Settles O10: START and END are no interior bytes, and an ESCAPE has the second byte of its pair behind it. -/
theorem packetMarkers : Obligations.PacketMarkers := by
  intro p q h i
  obtain ⟨u, rfl, hu⟩ := encodes_iff.mp h
  obtain ⟨hs, he⟩ := hu.markers_not_mem
  have hse : START ≠ END := by decide
  refine ⟨getElem?_cons_eq_head_iff (by simp [hs, hse]) i, ?_, fun hi => ?_, fun ⟨hi, hi'⟩ => ?_,
    fun ⟨hi, hi'⟩ => ?_⟩
  · refine (getElem?_concat_eq_last_iff (by simp [he, hse.symm]) i).trans ?_
    simp
  · obtain ⟨hpos, hlen, c, hc, hcan⟩ := escape_in_packet hu hi
    refine ⟨hpos, hlen, ?_⟩
    rw [hc]
    simpa using hcan
  · obtain ⟨-, -, c, hc, hcan⟩ := escape_in_packet hu hi
    obtain ⟨-, -, hx⟩ := canonicalSecond_not_marker hcan
    exact hx (Option.some.inj (hc.symm.trans hi'))
  · obtain ⟨-, -, c, hc, hcan⟩ := escape_in_packet hu hi
    obtain ⟨-, hx, -⟩ := canonicalSecond_not_marker hcan
    exact hx (Option.some.inj (hc.symm.trans hi'))

end Sys2Proof.Machine
end

section
/-!
SUPPORT. The decoder (R63, R66, R67, R70): what a byte means in each context, and that a step runs the instruction its
bytes decode to.
-/

namespace Sys2Proof.Machine

/-! ### What a byte means -/

section
variable {n : RxId} {b : Byte} {rest : List Byte}

theorem decodeSymbol_escape : decodeSymbol n ESCAPE (b :: rest) =
    .ok (if b = END then .pairIllegal n else .pair n b, rest) := by
  rw [decodeSymbol, if_pos rfl]
  split <;> rfl

theorem decodeSymbol_literal (hb : b ≠ ESCAPE) : decodeSymbol n b rest = .ok (.unescLiteral n b, rest) :=
  if_neg hb

end

/-- Settles O3: each context's table, symbol by symbol for a byte pair. -/
theorem byteMeaningByContext : Obligations.ByteMeaningByContext := fun _ _ _ =>
  ⟨rfl, rfl, rfl, rfl, rfl, rfl, rfl, decodeSymbol_escape, decodeSymbol_literal⟩

/-! ### What decodes is well formed -/

section
variable {n : RxId} {b : Byte} {rest more : List Byte} {i : Instr}

/-- A row of one byte, and a byte-class row that leaves that byte to it. -/
theorem wellFormed_ite {v : Byte} {j : Instr} (hi : WellFormed i = true) (hj : b ≠ v → WellFormed j = true) :
    WellFormed (if b = v then i else j) = true := by
  split
  · exact hi
  · exact hj ‹_›

theorem decodePayload_wellFormed (d : Byte) : WellFormed (decodePayload d) = true :=
  wellFormed_ite rfl fun hs => wellFormed_ite rfl fun he => wellFormed_ite rfl fun hx => by
    simp [WellFormed, hs, he, hx]

theorem decodeSymbol_wellFormed (h : decodeSymbol n b rest = .ok (i, more)) : WellFormed i = true := by
  by_cases hb : b = ESCAPE
  · subst hb
    cases rest with
    | nil => cases h
    | cons c rest =>
      rw [decodeSymbol_escape] at h
      cases h
      exact wellFormed_ite rfl bne_iff_ne.mpr
  · rw [decodeSymbol_literal hb] at h
    cases h
    exact bne_iff_ne.mpr hb

/-- R66, R67: the decoder answers no instruction whose byte belongs to a more specific row. -/
theorem decode_wellFormed {k : Ctx} {bs : List Byte} (h : decode k n bs = .ok (i, more)) : WellFormed i = true := by
  cases bs with
  | nil => cases h
  | cons b rest =>
    cases k with
    | packetFirst | packetLast =>
      simp only [decode] at h
      split at h
      · cases h; rfl
      · cases h
    | payload => cases h; exact decodePayload_wellFormed b
    | lookStart | lookEnd | clear | hunt | collect => cases h; exact wellFormed_ite rfl bne_iff_ne.mpr
    | escaped => cases h; rfl
    | symbol => exact decodeSymbol_wellFormed h

end

/-! ### What a step runs -/

section
variable {n : RxId} {s : State} {q : List Request} {i : Instr} {more : List Byte}

theorem step_pending {r : Request} (h : s.pending = r :: q) : step s = serve exec r { s with pending := q } := by
  simp only [step, h]

theorem runFetched_ok {go : Instr → Result} {k : Ctx} {bs : List Byte} (h : decode k n bs = .ok (i, more)) :
    runFetched go (k, n, bs) = go i := by
  simp only [runFetched, h, decode_wellFormed h, if_true]

theorem phaseCtx_eq (buf : List Byte) : phaseCtx buf = if phaseOf buf = .hunt then .hunt else .collect := by
  unfold phaseCtx
  cases phaseOf buf <;> rfl

theorem step_call (h : s.pending = .call i :: q) (hw : WellFormed i = true) :
    step s = exec i { s with pending := q } :=
  (step_pending h).trans (if_pos hw)

theorem step_payloadByte {d : Byte} (h : s.pending = .payloadByte d :: q)
    (hd : decode .payload 0 [d] = .ok (i, more)) : step s = exec i { s with pending := q } :=
  (step_pending h).trans (runFetched_ok (go := (exec · _)) hd)

theorem step_rxByte {b : Byte} (h : s.pending = .rxByte n b :: q)
    (hd : decode (phaseCtx (s.rx n).rxbuf) n [b] = .ok (i, more)) : step s = exec i { s with pending := q } :=
  (step_pending h).trans (runFetched_ok hd)

theorem step_nextByte {x : Fetched} (h : s.pending = .nextByte n :: q)
    (hx : ∀ go, fetchByte n { s with pending := q } go = go x) (hd : decode x.1 x.2.1 x.2.2 = .ok (i, more)) :
    step s = exec i { s with pending := q } :=
  (step_pending h).trans ((hx _).trans (runFetched_ok hd))

section
variable {rs : List DecodeResult} {pos first : Nat} {b : Byte} {frame rest out : List Byte} {pend : Bool}

theorem fetchByte_scanStart (hf : Feeding n s rs (.scanStart pos)) (hb : readByte (s.rx n).rxbuf pos = some b)
    (go : Fetched → Result) : fetchByte n s go = go (.lookStart, n, [b]) :=
  (whenFeeding_some hf _).trans (lookAt_some hb _)

theorem fetchByte_scanEnd (hf : Feeding n s rs (.scanEnd first pos)) (hb : readByte (s.rx n).rxbuf pos = some b)
    (go : Fetched → Result) : fetchByte n s go = go (.lookEnd, n, [b]) :=
  (whenFeeding_some hf _).trans (lookAt_some hb _)

theorem fetchByte_unescape (hf : Feeding n s rs (.unescape frame (b :: rest) pend out)) (go : Fetched → Result) :
    fetchByte n s go = go (if pend then .escaped else .clear, n, [b]) := by
  refine (whenFeeding_some hf _).trans ?_
  cases pend <;> rfl

theorem fetchSymbol_unescape (hf : Feeding n s rs (.unescape frame (b :: rest) false out)) (go : Fetched → Result) :
    fetchSymbol n s go = go (.symbol, n, b :: rest ++ [END]) :=
  whenFeeding_some hf _

end

end

/-- Settles O5: each request is served by the fetch of its bytes, and what they decode to is well formed. -/
theorem stepRunsDecodedInstruction : Obligations.StepRunsDecodedInstruction := by
  intro s q
  refine ⟨fun h => by simp only [step, h], fun i => step_call, step_pending, step_pending, ?_, ?_, ?_, ?_, ?_, ?_⟩
  · exact fun d i => step_payloadByte
  · exact fun n b i h hd => step_rxByte h (by rwa [phaseCtx_eq])
  · exact fun n rs pos b i h hf hb hd => step_nextByte h (fetchByte_scanStart hf hb) hd
  · exact fun n rs first pos b i h hf hb hd => step_nextByte h (fetchByte_scanEnd hf hb) hd
  · exact fun n rs frame b rest pend out i h hf hd => step_nextByte h (fetchByte_unescape hf) hd
  · exact fun n rs frame b rest out i more h hf hd =>
      (step_pending h).trans ((fetchSymbol_unescape hf _).trans (runFetched_ok hd))

end Sys2Proof.Machine
end

section
/-!
SUPPORT. The byte rows of a FEED in progress (R63, R67, R70, R92, R93): each completes on the byte it stands for and moves
the FEED on; the scans and the pairs taken byte by byte end where the whole steps end.
-/

namespace Sys2Proof.Machine

/-! ### The place of a FEED in progress -/

section
variable {n : RxId} {s : State} {rs : List DecodeResult} {p : Pass}

theorem State.setFeed_setFeed (s : State) (n : RxId) (f g : Option Feed) :
    (s.setFeed n f).setFeed n g = s.setFeed n g := by
  simp only [State.setFeed, State.setRx_rx_same, State.setRx_setRx]

theorem feeding_setFeed (n : RxId) (s : State) (rs : List DecodeResult) (p : Pass) :
    Feeding n (s.setFeed n (some ⟨rs, p⟩)) rs p := by
  simp [Feeding]

/-- An instruction that only moves the FEED on leaves everything else. -/
theorem completes_of_setFeed {i : Instr} (h : exec i s = .next (s.setFeed n (some ⟨rs, p⟩))) :
    ∃ t, exec i s = .next t ∧ RxFrame n s t [] ∧ t.rx n = inPass (s.rx n) rs p :=
  ⟨_, h, ⟨rfl, rfl, rfl, rfl, rfl, by simp, fun _ hm => by simp [hm]⟩, by simp [inPass]⟩

end

/-! ### The scans -/

section
variable {n : RxId} {s : State} {rs : List DecodeResult} {pos first : Nat} {b : Byte}

theorem exec_scanStart (hf : Feeding n s rs (.scanStart pos)) (hb : (s.rx n).rxbuf[pos]? = some START) :
    exec (.scanStart n) s = .next (s.setFeed n (some ⟨rs, .scanEnd pos (pos + 1)⟩)) :=
  (whenFeeding_some hf _).trans ((lookAt_some hb _).trans (if_pos rfl))

theorem exec_scanSkip (hf : Feeding n s rs (.scanStart pos)) (hb : (s.rx n).rxbuf[pos]? = some b) (h : b ≠ START) :
    exec (.scanSkip n b) s = .next (s.setFeed n (some ⟨rs, .scanStart (pos + 1)⟩)) :=
  (if_neg h).trans ((whenFeeding_some hf _).trans ((lookAt_some hb _).trans (if_pos rfl)))

theorem exec_scanEnd (hf : Feeding n s rs (.scanEnd first pos)) (hb : (s.rx n).rxbuf[pos]? = some END) :
    exec (.scanEnd n) s = .next (s.setFeed n (some ⟨rs, .found first pos⟩)) :=
  (whenFeeding_some hf _).trans ((lookAt_some hb _).trans (if_pos rfl))

theorem exec_scanBody (hf : Feeding n s rs (.scanEnd first pos)) (hb : (s.rx n).rxbuf[pos]? = some b) (h : b ≠ END) :
    exec (.scanBody n b) s = .next (s.setFeed n (some ⟨rs, .scanEnd first (pos + 1)⟩)) :=
  (if_neg h).trans ((whenFeeding_some hf _).trans ((lookAt_some hb _).trans (if_pos rfl)))

/-- R67 context A: the byte looked at ends the search for START or is passed over. -/
theorem exec_decodeLookStart (hf : Feeding n s rs (.scanStart pos)) (hb : (s.rx n).rxbuf[pos]? = some b) :
    exec (decodeLookStart n b) s =
      .next (s.setFeed n (some ⟨rs, if b = START then .scanEnd pos (pos + 1) else .scanStart (pos + 1)⟩)) := by
  unfold decodeLookStart
  split
  · subst b; exact exec_scanStart hf hb
  · exact exec_scanSkip hf hb ‹_›

/-- R67 context B: the byte looked at ends the search for END or is part of the interior. -/
theorem exec_decodeLookEnd (hf : Feeding n s rs (.scanEnd first pos)) (hb : (s.rx n).rxbuf[pos]? = some b) :
    exec (decodeLookEnd n b) s =
      .next (s.setFeed n (some ⟨rs, if b = END then .found first pos else .scanEnd first (pos + 1)⟩)) := by
  unfold decodeLookEnd
  split
  · subst b; exact exec_scanEnd hf hb
  · exact exec_scanBody hf hb ‹_›

theorem exec_rxScanStart_found {i : Nat} (hf : Feeding n s rs (.scanStart pos))
    (h : find START (s.rx n).rxbuf 0 = some i) :
    exec (.rxScanStart n) s = .next (s.setFeed n (some ⟨rs, .scanEnd i (i + 1)⟩)) := by
  refine (whenFeeding_some hf _).trans ?_
  simp only [h]
  rfl

theorem exec_rxScanEnd_found {j : Nat} (hf : Feeding n s rs (.scanEnd first pos))
    (h : find END (s.rx n).rxbuf (first + 1) = some j) :
    exec (.rxScanEnd n) s = .next (s.setFeed n (some ⟨rs, .found first j⟩)) := by
  refine (whenFeeding_some hf _).trans ?_
  simp only [h]
  rfl

end

/-- Settles O37: each row on its own byte moves the scan on, or ends it. -/
theorem scanRows : Obligations.ScanRows := by
  intro n s rs pos first b
  refine ⟨fun hf hb => ⟨?_, fun h => ?_⟩, fun hf hb => ⟨?_, fun h => ?_⟩⟩
  · rintro rfl
    exact completes_of_setFeed (exec_scanStart hf hb)
  · exact completes_of_setFeed (exec_scanSkip hf hb h)
  · rintro rfl
    exact completes_of_setFeed (exec_scanEnd hf hb)
  · exact completes_of_setFeed (exec_scanBody hf hb h)

/-! ### The scans byte by byte -/

section
variable {n : RxId} {rs : List DecodeResult} {v : Byte} {place done : Nat → Pass}

/-- A step looks at the byte under a scan for `v`: the scan, at `place pos`, ends with `done pos` or goes on behind it. -/
def ScanStep (n : RxId) (rs : List DecodeResult) (v : Byte) (place done : Nat → Pass) : Prop :=
  ∀ (s : State) (pos : Nat) (b : Byte) (q : List Request), Feeding n s rs (place pos) →
    (s.rx n).rxbuf[pos]? = some b → step { s with pending := .nextByte n :: q } =
      .next { s.setFeed n (some ⟨rs, if b = v then done pos else place (pos + 1)⟩) with pending := q }

theorem scanStep_start (n : RxId) (rs : List DecodeResult) :
    ScanStep n rs START .scanStart fun pos => .scanEnd pos (pos + 1) :=
  fun s _ _ q hf hb =>
    (step_nextByte (s := { s with pending := .nextByte n :: q }) rfl (fetchByte_scanStart hf hb) rfl).trans
      (exec_decodeLookStart hf hb)

theorem scanStep_end (n : RxId) (rs : List DecodeResult) (first : Nat) :
    ScanStep n rs END (.scanEnd first) (.found first) :=
  fun s _ _ q hf hb =>
    (step_nextByte (s := { s with pending := .nextByte n :: q }) rfl (fetchByte_scanEnd hf hb) rfl).trans
      (exec_decodeLookEnd hf hb)

theorem getElem?_of_drop_eq_cons {buf t : List Byte} {pos : Nat} {b : Byte} (h : buf.drop pos = b :: t) :
    buf[pos]? = some b := by
  rw [← List.head?_drop, h, List.head?_cons]

/-- The scan passes over the bytes before the first `v`, one step each, and ends on it. -/
theorem ScanStep.run_until_found (hscan : ScanStep n rs v place done) {g u : List Byte} {pos : Nat} {s : State}
    (more : List Request) (hbuf : (s.rx n).rxbuf.drop pos = g ++ v :: u) (hg : v ∉ g)
    (hf : Feeding n s rs (place pos)) :
    runSteps (g.length + 1) { s with pending := List.replicate (g.length + 1) (.nextByte n) ++ more } =
      .next { s.setFeed n (some ⟨rs, done (pos + g.length)⟩) with pending := more } := by
  induction g generalizing pos s with
  | nil =>
    have hs := hscan s pos v more hf (getElem?_of_drop_eq_cons hbuf)
    rw [if_pos rfl] at hs
    exact runSteps_next hs
  | cons x g ih =>
    rw [List.mem_cons, not_or] at hg
    obtain ⟨hx, hg⟩ := hg
    have hbuf' : ((s.setFeed n (some ⟨rs, place (pos + 1)⟩)).rx n).rxbuf.drop (pos + 1) = g ++ v :: u := by
      rw [State.setFeed_rx_same, ← List.tail_drop, hbuf]
      rfl
    have hs := hscan s pos x (List.replicate (g.length + 1) (.nextByte n) ++ more) hf (getElem?_of_drop_eq_cons hbuf)
    rw [if_neg (Ne.symm hx)] at hs
    have hrest := ih hbuf' hg (feeding_setFeed _ _ _ _)
    rw [State.setFeed_setFeed, Nat.add_right_comm] at hrest
    exact (runSteps_next hs).trans hrest

end

/-- Settles O41: both scans are scans for one byte, which the whole step finds where the bytes before it end. -/
theorem scanByteByByte : Obligations.ScanByteByByte := by
  intro n s rs g u more
  refine ⟨fun hbuf hg hf => ?_, fun first v hbuf hv hf => ?_⟩
  · have hfind : find START (s.rx n).rxbuf 0 = some g.length := by rw [hbuf, find_append hg]
    have hrun := (scanStep_start n rs).run_until_found more (pos := 0) hbuf hg hf
    rw [Nat.zero_add] at hrun
    exact hrun.trans (exec_rxScanStart_found (s := { s with pending := more }) hf hfind).symm
  · have hfind : find END (s.rx n).rxbuf (first + 1) = some (first + 1 + v.length) := by
      rw [find_from, hbuf, find_append hv, Nat.add_comm (first + 1)]
      rfl
    exact ((scanStep_end n rs first).run_until_found more hbuf hv hf).trans
      (exec_rxScanEnd_found (s := { s with pending := more }) hf hfind).symm

/-! ### The pairs -/

section
variable {n : RxId} {s : State} {rs : List DecodeResult} {frame rest out : List Byte} {c : Byte}

theorem exec_unescEscape (hf : Feeding n s rs (.unescape frame (ESCAPE :: rest) false out)) :
    exec (.unescEscape n) s = .next (s.setFeed n (some ⟨rs, .unescape frame rest true out⟩)) :=
  (whenFeeding_some hf _).trans (if_pos rfl)

theorem exec_unescComplement (hf : Feeding n s rs (.unescape frame (c :: rest) true out)) :
    exec (.unescComplement n c) s = .next (s.setFeed n (some ⟨rs, .unescape frame rest false (out ++ [~~~c])⟩)) :=
  (whenFeeding_some hf _).trans (if_pos rfl)

theorem exec_pair (hc : c ≠ END) (hf : Feeding n s rs (.unescape frame (ESCAPE :: c :: rest) false out)) :
    exec (.pair n c) s = .next (s.setFeed n (some ⟨rs, .unescape frame rest false (out ++ [~~~c])⟩)) :=
  (if_neg hc).trans ((whenFeeding_some hf _).trans (if_pos ⟨rfl, rfl⟩))

theorem exec_pairIllegal (hf : Feeding n s rs (.unescape frame [ESCAPE] false out)) :
    exec (.pairIllegal n) s = .next (s.setFeed n (some ⟨rs ++ [.err .malformedFrame], .scanStart 0⟩)) :=
  (whenFeeding_some hf _).trans (if_pos rfl)

theorem exec_rxEmitErr (hf : Feeding n s rs (.unescape frame [] true out)) :
    exec (.rxEmitErr n) s = .next (s.setFeed n (some ⟨rs ++ [.err .malformedFrame], .scanStart 0⟩)) :=
  whenFeeding_some hf _

/-- Two instructions of which the first only moves the FEED on from there the second sets it. -/
theorem runInstrs_pair_of_setFeed {i j : Instr} {f g : Option Feed} (hi : exec i s = .next (s.setFeed n f))
    (hj : exec j (s.setFeed n f) = .next ((s.setFeed n f).setFeed n g)) :
    runInstrs [i, j] s = .next (s.setFeed n g) := by
  rw [runInstrs_next hi, runInstrs_next hj, State.setFeed_setFeed]
  rfl

end

/-- R63 writes the complement of a byte as the exclusive or with `0xFF`. -/
theorem xor_ff_eq_complement (c : Byte) : 0xFF ^^^ c = ~~~c :=
  BitVec.allOnes_xor

/-- Settles O40: a pair row sets the FEED where its two byte rows set it, one after the other. -/
theorem pairRows : Obligations.PairRows := by
  intro n s rs frame rest out c
  refine ⟨fun hc hf => ⟨?_, ?_⟩, fun hf => ⟨?_, ?_⟩⟩
  · rw [xor_ff_eq_complement]
    exact completes_of_setFeed (exec_pair hc hf)
  · rw [exec_pair hc hf]
    exact runInstrs_pair_of_setFeed (exec_unescEscape hf) (exec_unescComplement (feeding_setFeed _ _ _ _))
  · exact completes_of_setFeed (exec_pairIllegal hf)
  · rw [exec_pairIllegal hf]
    exact runInstrs_pair_of_setFeed (exec_unescEscape hf) (exec_rxEmitErr (feeding_setFeed _ _ _ _))

end Sys2Proof.Machine
end

section
/-!
SUPPORT. How long the interior of a frame is against its payload (R62, R88), and the round trip that rests on it (R103).
-/

namespace Sys2Proof.Machine

/-! ### Lengths -/

section
variable {u p : List Byte}

/-- Every byte of an interior stands for a payload byte of its own, but the ESCAPE that begins a pair. -/
theorem Symbols.length_le (h : Symbols u p) : u.length ≤ p.length + u.count ESCAPE := by
  induction h with
  | nil => exact Nat.le_refl 0
  | @literal d u p _ _ ih =>
    have hcount : u.count ESCAPE ≤ (d :: u).count ESCAPE := List.count_le_count_cons
    simp only [List.length_cons]
    omega
  | @pair c u p _ ih =>
    have hcount : u.count ESCAPE ≤ (c :: u).count ESCAPE := List.count_le_count_cons
    simp only [List.length_cons, List.count_cons_self]
    omega

theorem special_iff {d : Byte} : special d = true ↔ d = START ∨ d = END ∨ d = ESCAPE := by
  simp [special, or_assoc]

theorem not_special {d : Byte} (hs : d ≠ START) (he : d ≠ END) (hx : d ≠ ESCAPE) : ¬special d = true := by
  simp [special_iff, hs, he, hx]

theorem special_complement {c : Byte} (hc : c = 0xFE ∨ c = 0xE5 ∨ c = 0xE4) : special (~~~c) = true := by
  rcases hc with rfl | rfl | rfl <;> rfl

/-- The ESCAPEs of a packet's interior are the first bytes of its pairs, one for each special payload byte. -/
theorem CanonicalSymbols.count_escape (h : CanonicalSymbols u p) : u.count ESCAPE = p.countP special := by
  induction h with
  | nil => rfl
  | data hs he hx _ ih =>
    rw [List.count_cons_of_ne hx, List.countP_cons_of_neg (not_special hs he hx), ih]
  | pair hc _ ih =>
    obtain ⟨-, -, hx⟩ := canonicalSecond_not_marker hc
    rw [List.count_cons_self, List.count_cons_of_ne hx, List.countP_cons_of_pos (special_complement hc), ih]

theorem CanonicalSymbols.length_eq (h : CanonicalSymbols u p) : u.length = p.length + p.countP special := by
  induction h with
  | nil => rfl
  | data hs he hx _ ih =>
    rw [List.countP_cons_of_neg (not_special hs he hx), List.length_cons, List.length_cons, ih]
    omega
  | pair hc _ ih =>
    rw [List.countP_cons_of_pos (special_complement hc), List.length_cons, List.length_cons, List.length_cons, ih]
    omega

/-- R88: START, END, the payload bytes, and one byte more for each special one. -/
theorem Encodes.length_eq {q : List Byte} (h : Encodes p q) : q.length = 2 + p.length + p.countP special := by
  obtain ⟨u, rfl, hu⟩ := encodes_iff.mp h
  have hlen := hu.length_eq
  simp only [List.length_append, List.length_cons, List.length_nil]
  omega

end

/-- Settles O9: the number of special bytes lies between 0 and the payload's length, and is one of them exactly when
none or all are special. -/
theorem packetLength : Obligations.PacketLength := by
  have hspecial (p : List Byte) :
      p.countP special = p.countP fun d => d = 0x01 ∨ d = 0x1A ∨ d = 0x1B :=
    List.countP_congr fun d _ => special_iff.trans decide_eq_true_iff.symm
  refine ⟨fun p q h => ?_, fun q h => h.length_eq⟩
  have hlen := h.length_eq
  rw [hspecial] at hlen
  intro k
  have hle : k ≤ p.length := List.countP_le_length
  have hnone : k = 0 ↔ ∀ d ∈ p, ¬(d = 0x01 ∨ d = 0x1A ∨ d = 0x1B) := by
    simp only [k, List.countP_eq_zero, decide_eq_true_iff]
  have hall : k = p.length ↔ ∀ d ∈ p, d = 0x01 ∨ d = 0x1A ∨ d = 0x1B := by
    simp only [k, List.countP_eq_length, decide_eq_true_iff]
  refine ⟨hlen, by omega, by omega, ?_, ?_⟩
  · rw [← hnone]
    omega
  · rw [← hall]
    omega

/-! ### The round trip -/

section
variable {n : RxId} {s t : State} {g u p q : List Byte}

theorem unescape_eq_ok_iff : unescape u = .ok p ↔ Symbols u p := by
  rw [unescape_iff]
  constructor
  · rintro (⟨p', hp, he⟩ | ⟨v, p', -, -, he⟩)
    · cases he
      exact hp
    · cases he
  · exact fun h => .inl ⟨p, h, rfl⟩

/-- With BUF_CAP infinite FEED does what the loop does (R90). -/
theorem feeds_of_drains {c left : List Byte} {rs : List DecodeResult} (hr : Ready n s) (hc : s.cfg.bufCap = none)
    (h : Drains ((s.rx n).rxbuf ++ c) rs left) : Feeds n c s rs left := by
  refine feeds_of_feedBuf hr ?_
  rw [hc]
  exact congrArg some (drains_iff.mp h)

/-- A buffer that ends with the END of its first frame gives that frame's result and leaves nothing. -/
theorem drains_one_frame {r : DecodeResult} (hg : START ∉ g) (hu : END ∉ u) (hr : FrameResult u r) :
    Drains (g ++ (START :: u ++ [END])) [r] [] := by
  rw [← List.append_assoc]
  exact .frame hg hu hr (.noStart (by simp))

/-- Orphan bytes before a packet do not matter (R31, R94). -/
theorem drains_noise_packet (hg : START ∉ g) (h : Encodes p q) : Drains (g ++ q) [.ok p] [] := by
  obtain ⟨u, rfl, hu⟩ := encodes_iff.mp h
  exact drains_one_frame hg hu.markers_not_mem.2 (.inl ⟨p, hu.symbols, rfl⟩)

theorem drains_packets {pqs : List (List Byte × List Byte)} (h : ∀ x ∈ pqs, Encodes x.1 x.2) :
    Drains (pqs.map (·.2)).flatten (pqs.map fun x => .ok x.1) [] := by
  induction pqs with
  | nil => exact .noStart (by simp)
  | cons x pqs ih =>
    rw [List.forall_mem_cons] at h
    obtain ⟨hx, hpqs⟩ := h
    exact (drains_noise_packet (g := []) (by simp) hx).append (ih hpqs)

/-- `decode` is FEED on the Reassembler constructed anew (R74). -/
theorem exec_decode_eq_feed (n : RxId) (x : List Byte) (s : State) :
    exec (.decode n x) s = exec (.feed n x) (s.construct n) :=
  (whenIdle_ready (by simp [Ready, Reassembler.fresh]) _).symm

theorem RxFrame.of_construct {out : List Reply} (h : RxFrame n (s.construct n) t out) : RxFrame n s t out := by
  obtain ⟨hcfg, hopen, hpending, henc, hdraws, hout, hother⟩ := h
  exact ⟨hcfg, hopen, hpending, henc, hdraws, hout, fun m hm => (hother m hm).trans (s.construct_rx_other n hm)⟩

/-- The bytes of an open frame and the START of a packet are too many for the packet's own payload. -/
theorem not_symbols_behind_open_frame {v : List Byte} (hv : CanonicalSymbols v p) : ¬Symbols (u ++ START :: v) p := by
  intro h
  have hle := h.length_le
  have hs : START ≠ ESCAPE := by decide
  rw [List.length_append, List.length_cons, hv.length_eq, List.count_append, List.count_cons_of_ne hs,
    hv.count_escape] at hle
  have hu : u.count ESCAPE ≤ u.length := List.count_le_length
  omega

end

/-- Settles O22: the loop takes the noise with the first packet and the packets one by one; behind an open START the
interior is longer than the payload allows. -/
theorem roundTrip : Obligations.RoundTrip := by
  refine ⟨fun n s pqs hr hc hs henc hne => ?_, fun n s p q hc h => ?_, fun n s g u p q hr hc hbuf hg hu h => ?_⟩
  · obtain ⟨x, pqs, rfl⟩ := List.exists_cons_of_ne_nil hne
    rw [List.forall_mem_cons] at henc
    obtain ⟨hx, hpqs⟩ := henc
    refine feeds_of_drains hr hc ?_
    rw [List.map_cons, List.flatten_cons, ← List.append_assoc]
    exact (drains_noise_packet hs hx).append (drains_packets hpqs)
  · have hfresh : Ready n (s.construct n) := by simp [Ready, Reassembler.fresh]
    have hdrains : Drains (((s.construct n).rx n).rxbuf ++ q) [.ok p] [] :=
      drains_noise_packet (by simp [Reassembler.fresh]) h
    obtain ⟨t, ht, hrx, hframe⟩ := feeds_of_drains hfresh hc hdrains
    exact ⟨t, (exec_decode_eq_feed n q s).trans ht, hrx, hframe.of_construct⟩
  · obtain ⟨v, rfl, hv⟩ := encodes_iff.mp h
    have hend : END ∉ u ++ START :: v := by
      have hse : END ≠ START := by decide
      simp [hu, hv.markers_not_mem.2, hse]
    refine ⟨unescape (u ++ START :: v), feeds_of_drains hr hc ?_, fun he => ?_⟩
    · have hframe := drains_one_frame hg hend (unescape_iff.mp rfl)
      simpa [hbuf] using hframe
    · exact not_symbols_behind_open_frame hv (unescape_eq_ok_iff.mp he)

end Sys2Proof.Machine
end

section
/-!
SUPPORT. The Encoder (R80 to R87, R110, R111): what ENCODE and each byte row hand over, and that the events of a payload,
taken as steps, hand over its packet.
-/

namespace Sys2Proof.Machine

/-- R62: the symbol of a payload byte, the markers written out. -/
theorem stuff1_eq (d : Byte) :
    stuff1 d = if d = 0x01 ∨ d = 0x1A ∨ d = 0x1B then [0x1B, ~~~d] else [d] :=
  if_congr special_iff rfl rfl

/-- Settles O8: the packet symbol by symbol. -/
theorem encodeHandsOverPacket : Obligations.EncodeHandsOverPacket := by
  intro p s
  simp only [← stuff1_eq]
  rfl

/-! ### The byte rows -/

section
variable {s : State} {d : Byte}

theorem exec_encStart (ho : s.payloadOpen = false) :
    exec .encStart s = .next ((s.emit [START]).setPayloadOpen true) :=
  if_neg (by simp [ho])

theorem whenPayloadOpen_open (ho : s.payloadOpen = true) (t : State) : whenPayloadOpen s t = .next t :=
  if_pos ho

theorem exec_encPlain (ho : s.payloadOpen = true) (hs : d ≠ START) (he : d ≠ END) (hx : d ≠ ESCAPE) :
    exec (.encPlain d) s = .next (s.emit [d]) :=
  (if_neg (not_special hs he hx)).trans (whenPayloadOpen_open ho _)

/-- R66, R110: event DATA hands over the symbol of its byte, whichever row the byte selects. -/
theorem exec_decodePayload (ho : s.payloadOpen = true) (d : Byte) :
    exec (decodePayload d) s = .next (s.emit (stuff1 d)) := by
  unfold decodePayload
  split
  · subst d; exact whenPayloadOpen_open ho _
  · split
    · subst d; exact whenPayloadOpen_open ho _
    · split
      · subst d; exact whenPayloadOpen_open ho _
      · rw [stuff1_of_data ‹_› ‹_› ‹_›]
        exact exec_encPlain ho ‹_› ‹_› ‹_›

end

/-- Settles O12: each row goes through the guard of its side of the open-payload bit. -/
theorem encoderRowsEmit : Obligations.EncoderRowsEmit := by
  refine fun s => ⟨exec_encStart, fun ho => ⟨fun d hs he hx => exec_encPlain ho hs he hx, ?_, ?_, ?_, ?_⟩⟩
  all_goals exact whenPayloadOpen_open ho _

/-! ### The events -/

section
variable {s : State} {q : List Request}

theorem step_sop (h : s.pending = .sop :: q) (ho : s.payloadOpen = false) :
    step s = .next { s with pending := q, encOut := s.encOut ++ [[START]], payloadOpen := true } :=
  (step_pending h).trans (exec_encStart (s := { s with pending := q }) ho)

theorem step_data {d : Byte} (h : s.pending = .payloadByte d :: q) (ho : s.payloadOpen = true) :
    step s = .next { s with pending := q, encOut := s.encOut ++ [stuff1 d] } :=
  (step_payloadByte h rfl).trans (exec_decodePayload (s := { s with pending := q }) ho d)

theorem step_eop (h : s.pending = .eop :: q) (ho : s.payloadOpen = true) :
    step s = .next { s with pending := q, encOut := s.encOut ++ [[END]], payloadOpen := false } :=
  (step_pending h).trans (whenPayloadOpen_open (s := { s with pending := q }) ho _)

/-- The DATA events of a payload hand over the symbols of its bytes, one output each. -/
theorem runSteps_data {p : List Byte} (h : s.pending = p.map .payloadByte ++ q) (ho : s.payloadOpen = true) :
    runSteps p.length s = .next { s with pending := q, encOut := s.encOut ++ p.map stuff1 } := by
  induction p generalizing s with
  | nil =>
    obtain rfl : s.pending = q := h
    simp
  | cons d p ih =>
    rw [List.length_cons, runSteps_next (step_data h ho), ih rfl]
    · simp
    · exact ho

end

/-- Settles O14: SOP opens the payload, the DATA events hand over its symbols, EOP closes it. -/
theorem encoderEventsMakePacket : Obligations.EncoderEventsMakePacket := by
  intro p q s more hq ho
  refine ⟨[START] :: p.map stuff1 ++ [[END]], ?_, by simp, ?_⟩
  · obtain ⟨u, rfl, hu⟩ := encodes_iff.mp hq
    rw [canonicalSymbols_iff.mp hu]
    simp [List.flatMap_def]
  · rw [List.append_assoc, List.append_assoc]
    have hsop := step_sop (s := { s with pending := .sop :: (p.map .payloadByte ++ ([.eop] ++ more)) }) rfl ho
    refine (runSteps_next hsop).trans ?_
    rw [runSteps_add (runSteps_data rfl rfl), runSteps_next (step_eop rfl rfl)]
    simp [ho]

end Sys2Proof.Machine
end

section
/-!
SUPPORT. The steps of FEED and the byte rows of the unescaper (R91 to R100, R105 to R107): what each does at its place of
the loop.
-/

namespace Sys2Proof.Machine

/-! ### Where the markers stand -/

section
variable {g u more : List Byte} {v x : Byte}

theorem find_behind (g u : List Byte) (v x : Byte) :
    find v (g ++ x :: u) (g.length + 1) = (find v u 0).map (· + (g.length + 1)) := by
  have hdrop : (g ++ x :: u).drop (g.length + 1) = u := by simp [List.drop_append]
  rw [find_from, hdrop]

theorem find_behind_none (h : v ∉ u) : find v (g ++ x :: u) (g.length + 1) = none := by
  rw [find_behind, find_none.mpr h]
  rfl

theorem find_behind_some (h : v ∉ u) : find v (g ++ x :: (u ++ v :: more)) (g.length + 1) =
    some (g.length + 1 + u.length) := by
  rw [find_behind, find_append h, Nat.add_comm (g.length + 1)]
  rfl

/-- R95: what lies between two indices, both ends included. -/
theorem slice_frame (g u more : List Byte) :
    slice (g ++ START :: u ++ END :: more) g.length (g.length + 1 + u.length) = START :: u ++ [END] := by
  have hdrop : (g ++ START :: u ++ END :: more).drop g.length = (START :: u ++ [END]) ++ more := by simp
  rw [slice, hdrop, List.take_left']
  simp only [List.length_append, List.length_cons, List.length_nil]
  omega

theorem removeThrough_frame (g u more : List Byte) :
    removeThrough (g ++ START :: u ++ END :: more) (g.length + 1 + u.length) = more := by
  have hsplit : g ++ START :: u ++ END :: more = (g ++ START :: u ++ [END]) ++ more := by simp
  rw [removeThrough, hsplit, List.drop_left']
  simp only [List.length_append, List.length_cons, List.length_nil]
  omega

end

/-! ### The steps -/

section
variable {n : RxId} {s : State} {rs : List DecodeResult} {pos first : Nat} {frame rest out u : List Byte} {b : Byte}
  {pend : Bool}

/-- R91: a chunk that overflows nothing is appended as a whole, and the loop begins. -/
theorem exec_rxAppend_fits {c : List Byte} {o : List DecodeResult × List Byte} (hr : Ready n s)
    (h : feedBuf s.cfg.bufCap (s.rx n).rxbuf c = some o) : exec (.rxAppend n c) s =
      .next ((s.setBuf n ((s.rx n).rxbuf ++ c)).setFeed n (some ⟨[], .scanStart 0⟩)) := by
  refine (whenIdle_ready hr _).trans ?_
  simp only [h]

theorem exec_rxAppend_overflow {c : List Byte} (hr : Ready n s)
    (h : feedBuf s.cfg.bufCap (s.rx n).rxbuf c = none) : exec (.rxAppend n c) s = .next (s.takeOverflow n) := by
  refine (whenIdle_ready hr _).trans ?_
  simp only [h]

theorem exec_rxScanStart_none (hf : Feeding n s rs (.scanStart pos)) (h : START ∉ (s.rx n).rxbuf) :
    exec (.rxScanStart n) s = .next (s.setFeed n (some ⟨rs, .stopped⟩)) := by
  refine (whenFeeding_some hf _).trans ?_
  simp only [find_none.mpr h]
  rfl

theorem exec_rxScanEnd_none (hf : Feeding n s rs (.scanEnd first pos))
    (h : find END (s.rx n).rxbuf (first + 1) = none) :
    exec (.rxScanEnd n) s = .next (s.setFeed n (some ⟨rs, .stopped⟩)) := by
  refine (whenFeeding_some hf _).trans ?_
  simp only [h]
  rfl

/-- R94, R95: RX.EXTRACT on the two indices of a frame. -/
theorem exec_rxExtract_frame {g more : List Byte} (hbuf : (s.rx n).rxbuf = g ++ START :: u ++ END :: more)
    (hf : Feeding n s rs (.found g.length (g.length + 1 + u.length))) : exec (.rxExtract n) s =
      .next ((s.setBuf n more).setFeed n (some ⟨rs, .unescape (START :: u ++ [END]) u false []⟩)) := by
  refine (whenFeeding_some hf _).trans ?_
  simp only [hbuf, slice_frame, removeThrough_frame, interior_frame]
  rfl

/-- R96: RX.UNESCAPE is the fold over the interior, whatever part of it was taken byte by byte. -/
theorem exec_rxUnescape_frame (hf : Feeding n s rs (.unescape (START :: u ++ [END]) rest pend out)) :
    exec (.rxUnescape n) s =
      .next (s.setFeed n (some ⟨rs, .unescape (START :: u ++ [END]) [] (unescFold u).2 (unescFold u).1⟩)) := by
  refine (whenFeeding_some hf _).trans ?_
  simp only [interior_frame]
  rfl

theorem exec_rxEmitOk (hf : Feeding n s rs (.unescape frame [] false out)) :
    exec (.rxEmitOk n) s = .next (s.setFeed n (some ⟨rs ++ [.ok out], .scanStart 0⟩)) :=
  whenFeeding_some hf _

theorem exec_rxReturn (hf : Feeding n s rs .stopped) :
    exec (.rxReturn n) s = .next ((s.setFeed n none).deliver n (.results rs)) :=
  whenFeeding_some hf _

theorem exec_unescLiteral (hb : b ≠ ESCAPE) (hf : Feeding n s rs (.unescape frame (b :: rest) false out)) :
    exec (.unescLiteral n b) s = .next (s.setFeed n (some ⟨rs, .unescape frame rest false (out ++ [b])⟩)) :=
  (if_neg hb).trans ((whenFeeding_some hf _).trans (if_pos rfl))

/-- `completes_of_setFeed` with the Reassembler before the frame, as the statements of the scans write it. -/
theorem inPass_of_setFeed {i : Instr} {p : Pass} (h : exec i s = .next (s.setFeed n (some ⟨rs, p⟩))) :
    ∃ t, exec i s = .next t ∧ t.rx n = inPass (s.rx n) rs p ∧ RxFrame n s t [] := by
  obtain ⟨t, ht, hframe, hrx⟩ := completes_of_setFeed h
  exact ⟨t, ht, hrx, hframe⟩

theorem rxFrame_setBuf_setFeed (n : RxId) (s : State) (b : List Byte) (f : Option Feed) :
    RxFrame n s ((s.setBuf n b).setFeed n f) [] :=
  ⟨rfl, rfl, rfl, rfl, rfl, by simp, fun _ hm => by simp [hm]⟩

end

/-- Settles O30: with BUF_CAP infinite every chunk fits. -/
theorem appendStep : Obligations.AppendStep := by
  intro n c s hr hc
  have hfits : feedBuf s.cfg.bufCap (s.rx n).rxbuf c = some (feedAll (s.rx n).rxbuf c) := by rw [hc]; rfl
  refine ⟨_, exec_rxAppend_fits hr hfits, by simp [hr.1], rxFrame_setBuf_setFeed _ _ _ _, fun a ha => ?_⟩
  simp [readByte, List.getElem?_append_left ha]

/-- Settles O32: each scan's search finds the first marker where the buffer is cut at it, and else none. -/
theorem scanSteps : Obligations.ScanSteps := by
  intro n s rs pos
  refine ⟨fun hf => ⟨fun h => ?_, fun g u hbuf hg => ?_⟩, fun g u hbuf hf => ⟨fun h => ?_, fun v w hu hv => ?_⟩⟩
  · exact inPass_of_setFeed (exec_rxScanStart_none hf h)
  · exact inPass_of_setFeed (exec_rxScanStart_found hf (by rw [hbuf, find_append hg]))
  · exact inPass_of_setFeed (exec_rxScanEnd_none hf (by rw [hbuf, find_behind_none h]))
  · exact inPass_of_setFeed (exec_rxScanEnd_found hf (by rw [hbuf, hu, find_behind_some hv]))

/-- Settles O33: the frame is cut out of the buffer between its two indices. -/
theorem extractStep : Obligations.ExtractStep := by
  intro n s rs g u more hbuf hf
  refine ⟨_, exec_rxExtract_frame hbuf hf, by simp [inPass], rxFrame_setBuf_setFeed _ _ _ _, fun k => ?_⟩
  have hmore : more = (s.rx n).rxbuf.drop (g.length + 1 + u.length + 1) := by
    rw [hbuf]
    exact (removeThrough_frame g u more).symm
  simp only [State.setFeed_rx_same, State.setBuf_rx_same, readByte]
  rw [hmore, List.getElem?_drop]

/-- Settles O34: the fold over an interior gives the payload of its symbols, and the flag of an ESCAPE behind them. -/
theorem unescapeAndEmitSteps : Obligations.UnescapeAndEmitSteps := by
  intro n s rs
  refine ⟨fun u rest pend out hf => ⟨fun p hp => ?_, fun v p hp hu => ?_⟩, fun frame out hf => ?_, fun frame out hf => ?_,
    fun hf => ?_⟩
  · have hexec := exec_rxUnescape_frame hf
    rw [unescFold_symbols hp] at hexec
    exact completes_of_setFeed hexec
  · have hexec := exec_rxUnescape_frame hf
    rw [show unescFold u = (p, true) by rw [hu, unescFold_escape hp]] at hexec
    exact completes_of_setFeed hexec
  · exact completes_of_setFeed (exec_rxEmitErr hf)
  · exact completes_of_setFeed (exec_rxEmitOk hf)
  · exact ⟨_, exec_rxReturn hf, ⟨rfl, rfl, rfl, rfl, rfl, rfl, fun _ hm => by simp [hm]⟩, by simp⟩

/-- Settles O39: each row on its own byte moves the unescaper on. -/
theorem unescapeRows : Obligations.UnescapeRows := by
  intro n s rs frame rest out x
  refine ⟨fun hf => ?_, fun hx hf => ?_, fun hf => ?_⟩
  · exact completes_of_setFeed (exec_unescEscape hf)
  · exact completes_of_setFeed (exec_unescLiteral hx hf)
  · rw [xor_ff_eq_complement]
    exact completes_of_setFeed (exec_unescComplement hf)

end Sys2Proof.Machine
end

section
/-!
SUPPORT. An interior unescaped byte by byte, and FEED taken by its steps, end where the whole step and the whole FEED end
(R90, R96, R118).
-/

namespace Sys2Proof.Machine

/-! ### The unescaper byte by byte -/

section
variable {n : RxId} {s : State} {rs : List DecodeResult} {frame rest out : List Byte} {b : Byte} {pend : Bool}

/-- Setting the FEED in progress to what it is changes nothing. -/
theorem Feeding.setFeed_self {p : Pass} (hf : Feeding n s rs p) : s.setFeed n (some ⟨rs, p⟩) = s := by
  have hfeed : (s.rx n).feed = some ⟨rs, p⟩ := hf
  have hne : s.rx n ≠ Reassembler.fresh := fun h => by simp [h, Reassembler.fresh] at hfeed
  rw [State.setFeed, ← hfeed]
  exact s.setRx_self n hne

/-- R67 contexts C and D: one step of the machine is one byte of the fold. -/
theorem step_nextByte_unescape (q : List Request) (hf : Feeding n s rs (.unescape frame (b :: rest) pend out)) :
    step { s with pending := .nextByte n :: q } =
      .next { s.setFeed n (some ⟨rs, .unescape frame rest (unescStep (out, pend) b).2 (unescStep (out, pend) b).1⟩)
        with pending := q } := by
  have hfetch := fetchByte_unescape (s := { s with pending := q }) hf
  cases pend with
  | true =>
    exact (step_nextByte (s := { s with pending := .nextByte n :: q }) rfl hfetch rfl).trans
      (exec_unescComplement (s := { s with pending := q }) hf)
  | false =>
    refine (step_nextByte (s := { s with pending := .nextByte n :: q }) rfl hfetch rfl).trans ?_
    by_cases hb : b = ESCAPE
    · subst hb
      exact exec_unescEscape (s := { s with pending := q }) hf
    · simp only [decodeClear, unescStep, if_neg hb]
      exact exec_unescLiteral (s := { s with pending := q }) hb hf

/-- As many steps as interior bytes are left fold them all. -/
theorem runSteps_unescape (more : List Request) (hf : Feeding n s rs (.unescape frame rest pend out)) :
    runSteps rest.length { s with pending := List.replicate rest.length (.nextByte n) ++ more } =
      .next { s.setFeed n (some ⟨rs, .unescape frame [] (rest.foldl unescStep (out, pend)).2
        (rest.foldl unescStep (out, pend)).1⟩) with pending := more } := by
  induction rest generalizing s out pend with
  | nil =>
    simp only [List.foldl_nil, hf.setFeed_self]
    rfl
  | cons b rest ih =>
    have hrest := ih (feeding_setFeed n s rs (.unescape frame rest (unescStep (out, pend) b).2
      (unescStep (out, pend) b).1))
    rw [State.setFeed_setFeed] at hrest
    exact (runSteps_next (step_nextByte_unescape _ hf)).trans hrest

end

/-- Settles O42: the steps fold the interior as RX.UNESCAPE does at once. -/
theorem unescapeByteByByte : Obligations.UnescapeByteByByte := by
  intro n s rs u more hf
  exact (runSteps_unescape more hf).trans (exec_rxUnescape_frame (s := { s with pending := more }) hf).symm

/-! ### The steps of a FEED one after the other -/

/-- The step that ends an interior: RX.EMIT_ERR where the flag is set, else RX.EMIT_OK. -/
def emitStep (n : RxId) (pend : Bool) : Instr :=
  if pend then .rxEmitErr n else .rxEmitOk n

/-- The steps of one pass of the loop over a frame with interior `u`. -/
def frameSteps (n : RxId) (u : List Byte) : List Instr :=
  [.rxScanStart n, .rxScanEnd n, .rxExtract n, .rxUnescape n, emitStep n (unescFold u).2]

section
variable {n : RxId} {s : State} {rs acc : List DecodeResult} {frame out g u more b left : List Byte} {pend : Bool}
  {pos : Nat}

theorem frameSteps_mem_laterSteps (n : RxId) (u : List Byte) : ∀ i ∈ frameSteps n u, i ∈ laterSteps n := by
  unfold frameSteps emitStep
  cases (unescFold u).2 <;> simp [laterSteps]

theorem exec_emitStep (hf : Feeding n s acc (.unescape frame [] pend out)) :
    exec (emitStep n pend) s = .next (s.setFeed n (some ⟨acc ++ [verdict (out, pend)], .scanStart 0⟩)) := by
  cases pend with
  | true => exact exec_rxEmitErr hf
  | false => exact exec_rxEmitOk hf

/-- One pass over a complete frame: its result is appended, and the frame is gone with the bytes before it. -/
theorem runInstrs_frameSteps (hf : Feeding n s acc (.scanStart pos))
    (hbuf : (s.rx n).rxbuf = g ++ START :: u ++ END :: more) (hg : START ∉ g) (hu : END ∉ u) :
    runInstrs (frameSteps n u) s =
      .next ((s.setBuf n more).setFeed n (some ⟨acc ++ [unescape u], .scanStart 0⟩)) := by
  have hsplit : (s.rx n).rxbuf = g ++ START :: (u ++ END :: more) := by rw [hbuf]; simp
  have hstart : find START (s.rx n).rxbuf 0 = some g.length := by rw [hsplit, find_append hg]
  have hend : find END (s.rx n).rxbuf (g.length + 1) = some (g.length + 1 + u.length) := by
    rw [hsplit, find_behind_some hu]
  rw [frameSteps, runInstrs_next (exec_rxScanStart_found hf hstart),
    runInstrs_next (exec_rxScanEnd_found (feeding_setFeed _ _ _ _) (by simpa using hend)),
    runInstrs_next (exec_rxExtract_frame (by simpa using hbuf) (feeding_setFeed _ _ _ _)),
    runInstrs_next (exec_rxUnescape_frame (feeding_setFeed _ _ _ _)),
    runInstrs_next (exec_emitStep (feeding_setFeed _ _ _ _))]
  simp only [runInstrs, State.setFeed, State.setBuf, State.setRx_rx_same, State.setRx_setRx]
  rfl

/-- The last pass: with no complete frame in the buffer the loop is left and the results are handed over. -/
theorem exists_steps_of_settled (hf : Feeding n s acc (.scanStart pos)) (hs : Settled (s.rx n).rxbuf) :
    ∃ is, (∀ i ∈ is, i ∈ laterSteps n) ∧
      runInstrs is s = .next ((s.setFeed n none).deliver n (.results acc)) := by
  rcases hs with hs | ⟨g, t, hbuf, hg, ht⟩
  · refine ⟨[.rxScanStart n, .rxReturn n], by simp [laterSteps], ?_⟩
    rw [runInstrs_next (exec_rxScanStart_none hf hs), runInstrs_next (exec_rxReturn (feeding_setFeed _ _ _ _)),
      State.setFeed_setFeed]
    rfl
  · have hstart : find START (s.rx n).rxbuf 0 = some g.length := by rw [hbuf, find_append hg]
    have hend : find END (s.rx n).rxbuf (g.length + 1) = none := by rw [hbuf, find_behind_none ht]
    refine ⟨[.rxScanStart n, .rxScanEnd n, .rxReturn n], by simp [laterSteps], ?_⟩
    rw [runInstrs_next (exec_rxScanStart_found hf hstart),
      runInstrs_next (exec_rxScanEnd_none (feeding_setFeed _ _ _ _) (by simpa using hend)),
      runInstrs_next (exec_rxReturn (feeding_setFeed _ _ _ _)), State.setFeed_setFeed, State.setFeed_setFeed]
    rfl

theorem State.setBuf_self_setFeed (s : State) (n : RxId) (f : Option Feed) :
    (s.setBuf n (s.rx n).rxbuf).setFeed n f = s.setFeed n f := by
  simp only [State.setFeed, State.setBuf, State.setRx_rx_same, State.setRx_setRx]

theorem State.setBuf_setFeed_again (s : State) (n : RxId) (b c : List Byte) (f g : Option Feed) :
    (((s.setBuf n b).setFeed n f).setBuf n c).setFeed n g = (s.setBuf n c).setFeed n g := by
  simp only [State.setFeed, State.setBuf, State.setRx_rx_same, State.setRx_setRx]

/-- The loop of R90 by its steps, from where a FEED stands before its step 2a. -/
theorem Drains.exists_steps (h : Drains b rs left) (hf : Feeding n s acc (.scanStart pos))
    (hbuf : (s.rx n).rxbuf = b) : ∃ is, (∀ i ∈ is, i ∈ laterSteps n) ∧
      runInstrs is s = .next (((s.setBuf n left).setFeed n none).deliver n (.results (acc ++ rs))) := by
  induction h generalizing s acc pos with
  | noStart hs =>
    subst hbuf
    rw [State.setBuf_self_setFeed, List.append_nil]
    exact exists_steps_of_settled hf (.inl hs)
  | noEnd hg ht =>
    rw [← hbuf, State.setBuf_self_setFeed, List.append_nil]
    exact exists_steps_of_settled hf (.inr ⟨_, _, hbuf, hg, ht⟩)
  | @frame g u more left r rs hg hu hr _ ih =>
    obtain ⟨is, his, hrun⟩ := ih (feeding_setFeed n (s.setBuf n more) (acc ++ [r]) (.scanStart 0)) (by simp)
    have hframe := runInstrs_frameSteps hf hbuf hg hu
    rw [unescape_iff.mpr hr] at hframe
    refine ⟨frameSteps n u ++ is, ?_, ?_⟩
    · intro i hi
      exact (List.mem_append.mp hi).elim (frameSteps_mem_laterSteps n u i) (his i)
    · rw [runInstrs_append hframe, hrun, State.setBuf_setFeed_again, ← List.append_cons]

end

section
variable {n : RxId} {s : State} {c : List Byte}

theorem exec_feed_fits {rs : List DecodeResult} {left : List Byte} (hr : Ready n s)
    (h : feedBuf s.cfg.bufCap (s.rx n).rxbuf c = some (rs, left)) :
    exec (.feed n c) s = .next ((s.setBuf n left).deliver n (.results rs)) := by
  refine (whenIdle_ready hr _).trans ?_
  simp only [feedChunk, h]

theorem exec_feed_overflow (hr : Ready n s) (h : feedBuf s.cfg.bufCap (s.rx n).rxbuf c = none) :
    exec (.feed n c) s = .next (s.takeOverflow n) := by
  refine (whenIdle_ready hr _).trans ?_
  simp only [feedChunk, h]

theorem Ready.setBuf_setFeed_none (hr : Ready n s) (b : List Byte) : (s.setBuf n b).setFeed n none = s.setBuf n b := by
  simp only [State.setFeed, State.setBuf, State.setRx_rx_same, State.setRx_setRx, ← hr.2]

end

/-- Settles O36: a chunk that overflows does so at RX.APPEND; any other is appended, and the steps drain the buffer. -/
theorem feedIsItsSteps : Obligations.FeedIsItsSteps := by
  intro n c s hr hs
  cases hfeed : feedBuf s.cfg.bufCap (s.rx n).rxbuf c with
  | none =>
    refine ⟨[], by simp, ?_, _, exec_feed_overflow hr hfeed⟩
    rw [runInstrs_next (exec_rxAppend_overflow hr hfeed), exec_feed_overflow hr hfeed]
    rfl
  | some o =>
    obtain ⟨rs, left⟩ := o
    have hdrains := drains_iff.mpr (feedBuf_drain hs hfeed)
    obtain ⟨is, his, hrun⟩ := hdrains.exists_steps
      (feeding_setFeed n (s.setBuf n ((s.rx n).rxbuf ++ c)) [] (.scanStart 0)) (by simp)
    refine ⟨is, his, ?_, _, exec_feed_fits hr hfeed⟩
    rw [runInstrs_next (exec_rxAppend_fits hr hfeed), hrun, State.setBuf_setFeed_again, hr.setBuf_setFeed_none,
      List.nil_append, exec_feed_fits hr hfeed]

end Sys2Proof.Machine
end

section
/-!
SUPPORT. What FEED gives as a function of the bytes that came in (R90, R134): how a stream is cut into chunks and
which orphan bytes stand before a START make no difference, and a START inside an open frame is interior data.
-/

namespace Sys2Proof.Machine

/-- Settles O15: the loop answers for every buffer, and FEED does what it answers. -/
theorem feedRunsLoop : Obligations.FeedRunsLoop := fun _ _ _ hr hc =>
  ⟨_, _, drains_drain _, feeds_of_drains hr hc (drains_drain _)⟩

/-- Settles O26: the interior runs from the open frame's START to the first END, the second START in it. -/
theorem noResynchronisation : Obligations.NoResynchronisation := by
  intro n g t u after left rs s hr hc hbuf hg ht hu hafter
  have hend : END ∉ t ++ START :: u := by
    have hne : END ≠ START := by decide
    simp [ht, hu, hne]
  have hresult : FrameResult (t ++ START :: u) (unescape (t ++ START :: u)) := unescape_iff.mp rfl
  have hdrains := Drains.frame hg hend hresult hafter
  exact ⟨_, hresult, feeds_of_drains hr hc (by simpa [hbuf] using hdrains)⟩

/-! ### Cutting a chunk -/

section
variable {n : RxId} {s : State} {c buf : List Byte} {k : Nat}

theorem feedCapped_overflow {x : Byte} (h : overCap (some k) (drain (buf ++ [x])).2 = true) :
    feedCapped k buf (x :: c) = none := by
  simp [feedCapped, feedAll, h]

theorem feedCapped_fits {x : Byte} (h : overCap (some k) (drain (buf ++ [x])).2 = false) :
    feedCapped k buf (x :: c) =
      (feedCapped k (drain (buf ++ [x])).2 c).map fun o => ((drain (buf ++ [x])).1 ++ o.1, o.2) := by
  simp only [feedCapped, feedAll, h]
  cases feedCapped k (drain (buf ++ [x])).2 c <;> rfl

/-- R102, R134: a chunk byte by byte is its first part and then, where nothing overflowed, its second. -/
theorem feedCapped_append (k : Nat) (buf a b : List Byte) : feedCapped k buf (a ++ b) =
    (feedCapped k buf a).bind fun o => (feedCapped k o.2 b).map fun o' => (o.1 ++ o'.1, o'.2) := by
  induction a generalizing buf with
  | nil => simp [feedCapped]
  | cons x a ih =>
    rw [List.cons_append]
    cases ho : overCap (some k) (drain (buf ++ [x])).2 with
    | true => simp [feedCapped_overflow ho]
    | false =>
      rw [feedCapped_fits ho, feedCapped_fits ho, ih]
      cases feedCapped k (drain (buf ++ [x])).2 a with
      | none => rfl
      | some o => simp [Function.comp_def, List.append_assoc]

/-- FEED on a buffer under either kind of BUF_CAP, its chunk cut in two. -/
theorem feedBuf_append (cap : Option Nat) (buf a b : List Byte) : feedBuf cap buf (a ++ b) =
    (feedBuf cap buf a).bind fun o => (feedBuf cap o.2 b).map fun o' => (o.1 ++ o'.1, o'.2) := by
  cases cap with
  | none => simp [feedBuf, feedAll, ← List.append_assoc, drain_append (buf ++ a) b]
  | some k => exact feedCapped_append k buf a b

theorem overflowed_takeOverflow (n : RxId) (s : State) : Overflowed n s (s.takeOverflow n) :=
  ⟨by simp, by simp, rfl, rfl, rfl, rfl, rfl, fun _ hm => by simp [hm]⟩

theorem ready_fed (hr : Ready n s) (left : List Byte) (r : Reply) : Ready n ((s.setBuf n left).deliver n r) := by
  simpa [Ready] using hr

end

/-- Settles O21: either neither part overflows, or the whole chunk does and so does one of its parts. -/
theorem chunkingDoesNotMatter : Obligations.ChunkingDoesNotMatter := by
  intro n a b s hr
  have hwhole := feedBuf_append s.cfg.bufCap (s.rx n).rxbuf a b
  cases ha : feedBuf s.cfg.bufCap (s.rx n).rxbuf a with
  | none =>
    rw [ha] at hwhole
    exact .inr ⟨feedBuf_none_ne ha, ⟨_, exec_feed_overflow hr hwhole, overflowed_takeOverflow n s⟩,
      _, exec_feed_overflow hr ha, .inl (overflowed_takeOverflow n s)⟩
  | some oa =>
    obtain ⟨ra, la⟩ := oa
    rw [ha] at hwhole
    have hrt := ready_fed hr la (.results ra)
    cases hb : feedBuf s.cfg.bufCap la b with
    | none =>
      simp only [Option.bind_some, hb, Option.map_none] at hwhole
      exact .inr ⟨feedBuf_none_ne hb, ⟨_, exec_feed_overflow hr hwhole, overflowed_takeOverflow n s⟩,
        _, exec_feed_fits hr ha, .inr ⟨_, exec_feed_overflow hrt (by simpa using hb), overflowed_takeOverflow n _⟩⟩
    | some ob =>
      obtain ⟨rb, lb⟩ := ob
      simp only [Option.bind_some, hb, Option.map_some] at hwhole
      exact .inl ⟨ra, la, rb, lb, _, feeds_of_feedBuf hr ha, exec_feed_fits hr ha,
        feeds_of_feedBuf hrt (by simpa using hb), feeds_of_feedBuf hr hwhole⟩

/-! ### Orphan bytes -/

section
variable {n : RxId} {b b' c left : List Byte} {rs : List DecodeResult}

theorem SameButOrphans.refl (b : List Byte) : SameButOrphans b b := by
  by_cases hs : START ∈ b
  · obtain ⟨g, t, rfl, hg⟩ := List.eq_append_cons_of_mem hs
    exact .inr ⟨g, g, t, rfl, rfl, hg, hg⟩
  · exact .inl ⟨hs, hs⟩

theorem SameButOrphans.append (h : SameButOrphans b b') (c : List Byte) : SameButOrphans (b ++ c) (b' ++ c) := by
  rcases h with ⟨hb, hb'⟩ | ⟨g, g', t, rfl, rfl, hg, hg'⟩
  · by_cases hc : START ∈ c
    · obtain ⟨v, t, rfl, hv⟩ := List.eq_append_cons_of_mem hc
      exact .inr ⟨b ++ v, b' ++ v, t, by simp, by simp, by simp [hb, hv], by simp [hb', hv]⟩
    · exact .inl ⟨by simp [hb, hc], by simp [hb', hc]⟩
  · exact .inr ⟨g, g', t ++ c, by simp, by simp, hg, hg'⟩

/-- R31: the loop does not look at the orphan bytes; a frame takes them out of the buffer (R94). -/
theorem SameButOrphans.drains (h : SameButOrphans b b') :
    ∃ rs left left', Drains b rs left ∧ Drains b' rs left' ∧ SameButOrphans left left' := by
  rcases h with ⟨hb, hb'⟩ | ⟨g, g', t, rfl, rfl, hg, hg'⟩
  · exact ⟨[], b, b', .noStart hb, .noStart hb', .inl ⟨hb, hb'⟩⟩
  · by_cases he : END ∈ t
    · obtain ⟨u, more, rfl, hu⟩ := List.eq_append_cons_of_mem he
      have hframe {g : List Byte} (hg : START ∉ g) := Drains.frame hg hu (unescape_iff.mp rfl) (drains_drain more)
      exact ⟨_, _, _, by simpa using hframe hg, by simpa using hframe hg', .refl _⟩
    · exact ⟨[], _, _, .noEnd hg he, .noEnd hg' he, .inr ⟨g, g', t, rfl, rfl, hg, hg'⟩⟩

theorem feedBuf_of_drains {cap : Option Nat} (hc : cap = none) (h : Drains (b ++ c) rs left) :
    feedBuf cap b c = some (rs, left) := by
  rw [hc]
  exact congrArg some (drains_iff.mp h)

/-- A FEED that overflows nothing, taken from the queue by one step of the machine. -/
theorem step_feed_fits {s : State} (q : List Request) (hr : Ready n s)
    (h : feedBuf s.cfg.bufCap (s.rx n).rxbuf c = some (rs, left)) :
    step { s with pending := .call (.feed n c) :: q } =
      .next { (s.setBuf n left).deliver n (.results rs) with pending := q } :=
  (step_call (s := { s with pending := .call (.feed n c) :: q }) rfl rfl).trans
    (exec_feed_fits (s := { s with pending := q }) hr h)

end

/-- Settles O28: each FEED of the sequence gives both buffers the same results, and they still differ in their orphan bytes
at most. -/
theorem orphansUnobservable : Obligations.OrphansUnobservable := by
  intro n cs
  induction cs with
  | nil => exact fun s s' _ _ _ _ h => ⟨_, _, [], rfl, rfl, by simp, by simp, rfl, h⟩
  | cons c cs ih =>
    intro s s' hr hr' hc hc' h
    obtain ⟨rs, left, left', hd, hd', hleft⟩ := (h.append c).drains
    have hfits := feedBuf_of_drains hc hd
    have hfits' := feedBuf_of_drains hc' hd'
    obtain ⟨t, t', ds, hrun, hrun', hout, hout', hlen, hsame⟩ :=
      ih _ _ (ready_fed hr left (.results rs)) (ready_fed hr' left' (.results rs)) hc hc' (by simpa using hleft)
    refine ⟨t, t', { rx := n, reply := .results rs } :: ds, ?_, ?_, ?_, ?_, congrArg (· + 1) hlen, hsame⟩
    · exact (runSteps_next (step_feed_fits _ hr hfits)).trans hrun
    · exact (runSteps_next (step_feed_fits _ hr' hfits')).trans hrun'
    · simp [hout]
    · simp [hout']

end Sys2Proof.Machine
end

section
/-!
SUPPORT. What the steps and byte rows of a FEED leave alone (R91, R94): away from the place where RX.EXTRACT acts, a FEED
in progress writes neither RXBUF nor FAULT.
-/

namespace Sys2Proof.Machine

section
variable {n : RxId} {c : List Byte} {s t : State} {f : Feed}

/-- Of the effects on a Reassembler with a FEED in progress only the extraction of a frame writes RXBUF. -/
theorem RxEffect.leaves_buffer (h : RxEffect n c s t) (hf : (s.rx n).feed = some f)
    (hp : ∀ i j, f.pass ≠ .found i j) :
    (t.rx n).fault = (s.rx n).fault ∧ (t.rx n).rxbuf = (s.rx n).rxbuf ∧ t.draws = s.draws := by
  have hbusy : ¬Ready n s := fun hr => by simp [hr.2] at hf
  cases h with
  | faultAgain => exact ⟨rfl, rfl, rfl⟩
  | overflow hr | fed hr | appended hr | held hr | collected hr => exact absurd hr hbusy
  | moved | emitted | returned => exact ⟨by simp, by simp, rfl⟩
  | extracted _ hf' hfound =>
    cases hf.symm.trans hf'
    exact absurd hfound (hp _ _)

/-- A step of FEED that has no meaning where RX.EXTRACT acts goes on at another place. -/
theorem whenFeeding_next_not_found {go : Feed → Result} (h : whenFeeding n s go = .next t)
    (hgo : ∀ rs i j, go ⟨rs, .found i j⟩ = .refused .stepOutOfOrder) :
    ∃ f, (s.rx n).feed = some f ∧ ∀ i j, f.pass ≠ .found i j := by
  obtain ⟨⟨rs, pass⟩, hf, hg⟩ := whenFeeding_next h
  refine ⟨_, hf, fun i j hp => ?_⟩
  obtain rfl : pass = .found i j := hp
  rw [hgo] at hg
  cases hg

theorem next_of_ite_refused {p : Prop} [Decidable p] {r : Refusal} {go : Result}
    (h : (if p then .refused r else go) = (.next t : Result)) : go = .next t := by
  split at h
  · cases h
  · exact h

end

/-- Settles O50: each of these rows goes on only where a FEED is in progress and no frame is to be extracted, and brings no
bytes; the effects it can have there write neither RXBUF nor FAULT. -/
theorem stepsLeaveBuffer : Obligations.StepsLeaveBuffer := by
  intro n i s t hi h
  obtain ⟨he, f, hf, hp⟩ : RxEffect n [] s t ∧ ∃ f, (s.rx n).feed = some f ∧ ∀ i j, f.pass ≠ .found i j := by
    simp only [List.mem_cons, List.not_mem_nil, or_false] at hi
    rcases hi with hi | ⟨b, hi⟩
    · rcases hi with rfl | rfl | rfl | rfl | rfl | rfl | rfl | rfl | rfl | rfl
      all_goals exact ⟨exec_effect h rfl (by simp [constructs]), whenFeeding_next_not_found h fun _ _ _ => rfl⟩
    · rcases hi with rfl | rfl | rfl | rfl | rfl
      · exact ⟨execScanSkip_effect h, whenFeeding_next_not_found (next_of_ite_refused h) fun _ _ _ => rfl⟩
      · exact ⟨execScanBody_effect h, whenFeeding_next_not_found (next_of_ite_refused h) fun _ _ _ => rfl⟩
      · exact ⟨execUnescLiteral_effect h, whenFeeding_next_not_found (next_of_ite_refused h) fun _ _ _ => rfl⟩
      · exact ⟨execUnescComplement_effect h, whenFeeding_next_not_found h fun _ _ _ => rfl⟩
      · exact ⟨execPair_effect h, whenFeeding_next_not_found (next_of_ite_refused h) fun _ _ _ => rfl⟩
  obtain ⟨hfault, hbuf, hdraws⟩ := he.leaves_buffer hf hp
  exact ⟨hfault, hbuf, fun a => by rw [hbuf], hdraws⟩

end Sys2Proof.Machine
end

section
/-!
SUPPORT. What FEED does is what `feedBuf` answers (R90, R134): the one outcome it has, when a finite BUF_CAP overflows,
and what a malformed frame gives (R130 to R132).
-/

namespace Sys2Proof.Machine

section
variable {n : RxId} {s : State} {c left : List Byte} {rs : List DecodeResult}

/-- The next state of a FEED in which results were delivered tells what they are, and what is left. -/
theorem feeds_iff (hr : Ready n s) :
    Feeds n c s rs left ↔ feedBuf s.cfg.bufCap (s.rx n).rxbuf c = some (rs, left) := by
  refine ⟨fun ⟨t, ht, hrx, hframe⟩ => ?_, feeds_of_feedBuf hr⟩
  obtain ⟨-, -, -, -, -, hout, -⟩ := hframe
  cases hfeed : feedBuf s.cfg.bufCap (s.rx n).rxbuf c with
  | none =>
    rw [exec_feed_overflow hr hfeed] at ht
    cases ht
    simp at hrx
  | some o =>
    obtain ⟨rs', left'⟩ := o
    rw [exec_feed_fits hr hfeed] at ht
    cases ht
    obtain rfl : left' = left := by simpa [hr.1, hr.2] using hrx
    obtain rfl : rs' = rs := by simpa using hout
    rfl

theorem exists_overflowed_iff (hr : Ready n s) : (∃ t, exec (.feed n c) s = .next t ∧ Overflowed n s t) ↔
    feedBuf s.cfg.bufCap (s.rx n).rxbuf c = none := by
  refine ⟨fun ⟨t, ht, hover⟩ => ?_, fun h => ⟨_, exec_feed_overflow hr h, overflowed_takeOverflow n s⟩⟩
  obtain ⟨hfault, -⟩ := hover
  cases hfeed : feedBuf s.cfg.bufCap (s.rx n).rxbuf c with
  | none => rfl
  | some o =>
    obtain ⟨rs, left⟩ := o
    rw [exec_feed_fits hr hfeed] at ht
    cases ht
    simp [hr.1] at hfault

end

/-! ### A finite BUF_CAP -/

/-- R134: a chunk overflows when the loop on its bytes so far leaves too many behind one of them. -/
theorem feedCapped_eq_none_iff {k : Nat} {buf c : List Byte} : feedCapped k buf c = none ↔
    ∃ i < c.length, k < (drain (buf ++ c.take (i + 1))).2.length := by
  induction c generalizing buf with
  | nil => simp [feedCapped]
  | cons x c ih =>
    have hlater (i : Nat) : (drain (buf ++ (x :: c).take (i + 1 + 1))).2 =
        (drain ((drain (buf ++ [x])).2 ++ c.take (i + 1))).2 := by
      rw [List.take_succ_cons, List.append_cons, drain_append]
    cases ho : overCap (some k) (drain (buf ++ [x])).2 with
    | true =>
      have hlt : k < (drain (buf ++ [x])).2.length := of_decide_eq_true ho
      exact iff_of_true (feedCapped_overflow ho) ⟨0, Nat.zero_lt_succ _, hlt⟩
    | false =>
      have hle : ¬k < (drain (buf ++ [x])).2.length := of_decide_eq_false ho
      rw [feedCapped_fits ho, Option.map_eq_none_iff, ih]
      constructor
      · rintro ⟨i, hi, hk⟩
        exact ⟨i + 1, Nat.succ_lt_succ hi, by rwa [hlater]⟩
      · rintro ⟨i, hi, hk⟩
        cases i with
        | zero => exact absurd hk hle
        | succ i => exact ⟨i, Nat.lt_of_succ_lt_succ hi, by rwa [hlater] at hk⟩

/-- Settles O17: the chunk overflows exactly when one of the retained buffers is too long; else the loop byte by byte is
the loop on the whole. -/
theorem feedWithCapacity : Obligations.FeedWithCapacity := by
  intro n c s cap hr hc hs
  refine ⟨fun hfits => ?_, fun i hi rs left hd hlt => ?_⟩
  · cases hfeed : feedBuf s.cfg.bufCap (s.rx n).rxbuf c with
    | none =>
      rw [hc] at hfeed
      obtain ⟨i, hi, hlt⟩ := feedCapped_eq_none_iff.mp hfeed
      exact absurd (hfits i hi _ _ (drains_drain _)) (Nat.not_le.mpr hlt)
    | some o => exact ⟨o.1, o.2, drains_iff.mpr (feedBuf_drain hs hfeed), feeds_of_feedBuf hr hfeed⟩
  · rw [exists_overflowed_iff hr, hc]
    exact feedCapped_eq_none_iff.mpr ⟨i, hi, by rwa [drains_iff.mp hd]⟩

/-- Settles O31: RX.APPEND asks whether the FEED of the chunk overflows. -/
theorem appendWithCapacity : Obligations.AppendWithCapacity := by
  intro n c s hr _
  refine ⟨fun ⟨rs, left, hfeeds⟩ => ?_, fun hover => ?_⟩
  · have hfits := (feeds_iff hr).mp hfeeds
    refine ⟨_, exec_rxAppend_fits hr hfits, by simp [hr.1], rxFrame_setBuf_setFeed _ _ _ _, fun a ha => ?_⟩
    simp [readByte, List.getElem?_append_left ha]
  · have hnone := (exists_overflowed_iff hr).mp hover
    exact ⟨_, exec_rxAppend_overflow hr hnone, overflowed_takeOverflow n s⟩

/-! ### FAULT -/

theorem whenIdle_faulted {n : RxId} {s : State} (h : (s.rx n).fault = true) (go : Result) :
    whenIdle n s go = .next (s.deliver n .bufferOverflow) :=
  if_pos h

/-- Settles O18: each of these rows goes through the guard of an idle Reassembler; the byte-class rows look at their
operand before it. -/
theorem faultReturnedAgain : Obligations.FaultReturnedAgain := by
  intro n s hf i hi
  have hguard := whenIdle_faulted hf
  rcases hi with ⟨c, rfl⟩ | ⟨c, rfl⟩ | ⟨b, hb, rfl⟩ | rfl | ⟨b, hb, rfl⟩ | rfl
  · exact hguard _
  · exact hguard _
  · exact (if_neg hb).trans (hguard _)
  · exact hguard _
  · exact (if_neg hb).trans (hguard _)
  · exact hguard _

/-! ### Malformed frames -/

theorem unescape_eq_err_iff {u : List Byte} :
    unescape u = .err .malformedFrame ↔ ∃ v p, Symbols v p ∧ u = v ++ [ESCAPE] := by
  rw [unescape_iff]
  constructor
  · rintro (⟨p, -, he⟩ | ⟨v, p, hv, hu, -⟩)
    · cases he
    · exact ⟨v, p, hv, hu⟩
  · rintro ⟨v, p, hv, hu⟩
    exact .inr ⟨v, p, hv, hu, rfl⟩

/-- A frame behind orphan bytes gives one result, the one of its interior. -/
theorem feeds_one_frame_iff {n : RxId} {s : State} {u : List Byte} {r : DecodeResult} (hr : Ready n s)
    (hc : s.cfg.bufCap = none) (hg : START ∉ (s.rx n).rxbuf) (hu : END ∉ u) :
    Feeds n (START :: u ++ [END]) s [r] [] ↔ unescape u = r := by
  have hfeed : feedBuf s.cfg.bufCap (s.rx n).rxbuf (START :: u ++ [END]) = some ([unescape u], []) :=
    feedBuf_of_drains hc (drains_one_frame hg hu (unescape_iff.mp rfl))
  rw [feeds_iff hr, hfeed]
  simp

/-- Settles O24: the one result of the frame is what the unescaper makes of its interior. -/
theorem malformedExactly : Obligations.MalformedExactly := by
  intro n u s hr hc hg hu
  refine ⟨?_, fun p => ?_⟩
  · rw [feeds_one_frame_iff hr hc hg hu, unescape_eq_err_iff]
  · rw [feeds_one_frame_iff hr hc hg hu, unescape_eq_ok_iff]

/-- Settles O25: the malformed frame is one pass of the loop like any other. -/
theorem malformedIsLocal : Obligations.MalformedIsLocal := by
  intro n before g v p after left rs rs' s hr hc hbefore hg hv hend hafter
  have hend' : END ∉ v ++ [ESCAPE] := by
    have hne : END ≠ ESCAPE := by decide
    simp [hend, hne]
  have hresult : FrameResult (v ++ [ESCAPE]) (.err .malformedFrame) := .inr ⟨v, p, hv, rfl, rfl⟩
  have hframe := Drains.frame hg hend' hresult hafter
  refine feeds_of_drains hr hc ?_
  simpa using hbefore.append hframe

end Sys2Proof.Machine
end

section
/-!
SUPPORT. The byte-serial view (R112 to R117, R120): a received byte does what FEED of that one byte does.
-/

namespace Sys2Proof.Machine

/-! ### The phases -/

section
variable {buf g : List Byte}

/-- A byte received on a buffer a FEED has left is held, or ends the open frame. -/
theorem Settled.held_or_ends (hs : Settled buf) (b : Byte) :
    (START ∉ buf ∨ b ≠ END) ∨ b = END ∧ ∃ g t, buf = g ++ START :: t ∧ START ∉ g ∧ END ∉ t := by
  rcases hs with hn | hopen
  · exact .inl (.inl hn)
  · by_cases hb : b = END
    · exact .inr ⟨hb, hopen⟩
    · exact .inl (.inr hb)

theorem phaseOf_collect : phaseOf buf = .collect ↔ START ∈ buf := by
  rw [← not_iff_not, ← phaseOf_hunt]
  cases phaseOf buf <;> simp

theorem openTail_append (hg : START ∉ g) (t : List Byte) : openTail (g ++ START :: t) = t := by
  simp [openTail, find_append hg, List.drop_append]

end

/-! ### The BYTE rows -/

section
variable {n : RxId} {b : Byte} {s t : State} {p : Phase} {go : Result}

theorem whenPhase_ready (hr : Ready n s) (hp : phaseOf (s.rx n).rxbuf = p) (go : Result) : whenPhase n p s go = go :=
  (whenIdle_ready hr _).trans (if_pos hp)

theorem whenPhase_ready_next (hr : Ready n s) (h : whenPhase n p s go = .next t) : go = .next t := by
  rw [whenPhase, whenIdle_ready hr] at h
  split at h
  · exact h
  · cases h

/-- R113, R114: the row of a byte received in phase HUNT holds it. -/
theorem exec_decodeHunt (n : RxId) (b : Byte) (s : State) :
    exec (decodeHunt n b) s = whenPhase n .hunt s (.next (holdByte n b s)) := by
  unfold decodeHunt
  split
  · subst b; rfl
  · exact if_neg ‹_›

/-- R115: the row of a byte received in phase COLLECT holds it, unless it is END. -/
theorem exec_decodeCollect_body (hb : b ≠ END) (n : RxId) (s : State) :
    exec (decodeCollect n b) s = whenPhase n .collect s (.next (holdByte n b s)) := by
  rw [decodeCollect, if_neg hb]
  exact if_neg hb

/-- R116: END received in phase COLLECT gives the result of the open frame, and the buffer is empty. -/
theorem exec_byteCollectEnd {g u : List Byte} (hr : Ready n s) (hbuf : (s.rx n).rxbuf = g ++ START :: u)
    (hg : START ∉ g) :
    exec (.byteCollectEnd n) s = .next ((s.setBuf n []).deliver n (.results [unescape u])) := by
  have hm : START ∈ (s.rx n).rxbuf := by simp [hbuf]
  refine (whenPhase_ready hr (phaseOf_collect.mpr hm) _).trans ?_
  rw [hbuf, openTail_append hg]

end

/-! ### One received byte -/

section
variable {n : RxId} {b : Byte} {s : State} {q : List Request}

theorem step_rxByte_hunt (hp : phaseOf (s.rx n).rxbuf = .hunt) :
    step { s with pending := .rxByte n b :: q } = exec (decodeHunt n b) { s with pending := q } := by
  have hctx : phaseCtx (s.rx n).rxbuf = .hunt := by rw [phaseCtx, hp]
  exact step_rxByte (s := { s with pending := .rxByte n b :: q }) (more := []) rfl (congrArg (decode · n [b]) hctx)

theorem step_rxByte_collect (hp : phaseOf (s.rx n).rxbuf = .collect) :
    step { s with pending := .rxByte n b :: q } = exec (decodeCollect n b) { s with pending := q } := by
  have hctx : phaseCtx (s.rx n).rxbuf = .collect := by rw [phaseCtx, hp]
  exact step_rxByte (s := { s with pending := .rxByte n b :: q }) (more := []) rfl (congrArg (decode · n [b]) hctx)

/-- On a faulted Reassembler every received byte returns the fault again (R135). -/
theorem step_rxByte_faulted (q : List Request) (hf : (s.rx n).fault = true) (b : Byte) :
    step { s with pending := .rxByte n b :: q } = .next { s.deliver n .bufferOverflow with pending := q } := by
  have hguard (go : Result) := whenIdle_faulted (s := { s with pending := q }) hf go
  cases hp : phaseOf (s.rx n).rxbuf with
  | hunt => rw [step_rxByte_hunt hp, exec_decodeHunt]; exact hguard _
  | collect =>
    rw [step_rxByte_collect hp]
    by_cases hb : b = END
    · subst hb; exact hguard _
    · rw [exec_decodeCollect_body hb]; exact hguard _

end

/-! ### Occupancy -/

/-- R120: a byte held at occupancy BUF_CAP overflows; a byte held without an overflow raises the occupancy by one. -/
theorem holdByte_occupancy (n : RxId) (b : Byte) (s : State) :
    (s.cfg.bufCap = some (s.rx n).rxbuf.length → Overflowed n s (holdByte n b s)) ∧
      (((holdByte n b s).rx n).fault = false →
        ((holdByte n b s).rx n).rxbuf.length = (s.rx n).rxbuf.length + 1) := by
  rcases holdByte_cases n b s with ⟨-, ht⟩ | ⟨hfits, ht⟩
  · rw [ht]
    exact ⟨fun _ => overflowed_takeOverflow n s, fun hf => by simp at hf⟩
  · rw [ht]
    refine ⟨fun hc => ?_, fun _ => by simp⟩
    have hle := overCap_eq_false.mp hfits _ hc
    simp at hle

/-- Settles O44: each of the three rows holds its byte; the fourth empties the buffer. -/
theorem byteOccupancy : Obligations.ByteOccupancy := by
  intro n s b hr
  refine ⟨fun i hi t h => ?_, fun t h => ?_⟩
  · obtain ⟨x, hx⟩ : ∃ x, (.next (holdByte n x s) : Result) = .next t := by
      rcases hi with ⟨-, rfl⟩ | rfl | ⟨-, rfl⟩
      · exact ⟨b, whenPhase_ready_next hr (next_of_ite_refused h)⟩
      · exact ⟨START, whenPhase_ready_next hr h⟩
      · exact ⟨b, whenPhase_ready_next hr (next_of_ite_refused h)⟩
    cases hx
    exact holdByte_occupancy n x s
  · cases whenPhase_ready_next hr h
    simp [hr.1]

/-! ### FEED of one byte -/

section
variable {n : RxId} {b : Byte} {s : State} {cap : Option Nat} {buf g t : List Byte}

theorem feedBuf_singleton (cap : Option Nat) (buf : List Byte) (b : Byte) : feedBuf cap buf [b] =
    if overCap cap (drain (buf ++ [b])).2 then none else some (drain (buf ++ [b])) := by
  cases cap with
  | none => rfl
  | some k => simp [feedBuf, feedCapped, feedAll]

theorem feedBuf_left_settled {c left : List Byte} {rs : List DecodeResult} (hs : Settled buf)
    (h : feedBuf cap buf c = some (rs, left)) : Settled left := by
  have hleft := drain_left_settled (buf ++ c)
  rwa [feedBuf_drain hs h] at hleft

/-- R47: the empty chunk changes nothing on a buffer a FEED has left. -/
theorem feedBuf_nil (hs : Settled buf) : feedBuf cap buf [] = some ([], buf) := by
  cases cap with
  | none => simp [feedBuf, feedAll, drain_settled hs]
  | some k => rfl

/-- A byte that completes no frame is held, where the buffer with it fits. -/
theorem feedBuf_held (hs : Settled buf) (hb : START ∉ buf ∨ b ≠ END) : feedBuf cap buf [b] =
    if overCap cap (buf ++ [b]) then none else some ([], buf ++ [b]) := by
  rw [feedBuf_singleton, drain_settled (hs.concat hb)]

/-- The END of the open frame never overflows. -/
theorem feedBuf_ends (hg : START ∉ g) (ht : END ∉ t) :
    feedBuf cap (g ++ START :: t) [END] = some ([unescape t], []) := by
  have hempty : overCap cap [] = false := by simp [overCap_eq_false]
  have hdrain : drain (g ++ START :: t ++ [END]) = ([unescape t], []) := by
    rw [List.append_assoc]
    exact drains_iff.mp (drains_one_frame hg ht (unescape_iff.mp rfl))
  rw [feedBuf_singleton, hdrain]
  simp [hempty]

/-- One byte gives at most one result. -/
theorem feedBuf_singleton_results {left : List Byte} {rs : List DecodeResult} (hs : Settled buf)
    (h : feedBuf cap buf [b] = some (rs, left)) : rs.length ≤ 1 := by
  rcases hs.held_or_ends b with hb | ⟨rfl, g, t, rfl, hg, ht⟩
  · rw [feedBuf_held hs hb] at h
    split at h
    · cases h
    · cases h; simp
  · rw [feedBuf_ends hg ht] at h
    cases h
    simp

theorem exec_feed_held (hr : Ready n s) (hs : Settled (s.rx n).rxbuf) (hb : START ∉ (s.rx n).rxbuf ∨ b ≠ END) :
    exec (.feed n [b]) s = .next (holdByte n b s) := by
  refine (whenIdle_ready hr _).trans (congrArg _ ?_)
  rw [feedChunk, feedBuf_held hs hb, holdByte]
  cases overCap s.cfg.bufCap ((s.rx n).rxbuf ++ [b]) <;> rfl

/-- R117 for one byte: the row a received byte selects in the phase the block is in does what FEED of the byte does. -/
theorem step_rxByte_eq_feed (q : List Request) (hr : Ready n s) (hs : Settled (s.rx n).rxbuf) (b : Byte) :
    step { s with pending := .rxByte n b :: q } = exec (.feed n [b]) { s with pending := q } := by
  have hrq : Ready n { s with pending := q } := hr
  rcases hs.held_or_ends b with hb | ⟨rfl, g, t, hbuf, hg, ht⟩
  · rw [exec_feed_held hrq hs hb]
    cases hp : phaseOf (s.rx n).rxbuf with
    | hunt => rw [step_rxByte_hunt hp, exec_decodeHunt, whenPhase_ready hrq hp]
    | collect =>
      have hne : b ≠ END := hb.resolve_left (not_not_intro (phaseOf_collect.mp hp))
      rw [step_rxByte_collect hp, exec_decodeCollect_body hne, whenPhase_ready hrq hp]
  · have hp : phaseOf (s.rx n).rxbuf = .collect := phaseOf_collect.mpr (by simp [hbuf])
    rw [step_rxByte_collect hp, exec_feed_fits hrq]
    · exact exec_byteCollectEnd hrq hbuf hg
    · exact (congrArg (feedBuf _ · _) hbuf).trans (feedBuf_ends hg ht)

end

/-! ### A chunk, one byte per step -/

/-- From `s` to `t`, `k` outcomes of Reassembler `n` were handed over, `ds`, each with one result at most. -/
def ByteOutcomes (n : RxId) (k : Nat) (s t : State) (ds : List Delivery) : Prop :=
  t.rxOut = s.rxOut ++ ds ∧ ds.length = k ∧ ∀ d ∈ ds, d.rx = n ∧ d.resultList.length ≤ 1

@[simp] theorem Delivery.resultList_results (n : RxId) (rs : List DecodeResult) :
    (Delivery.mk n (.results rs)).resultList = rs := rfl

section
variable {n : RxId} {s u t : State} {k : Nat} {ds : List Delivery}

theorem ByteOutcomes.nil (n : RxId) (s : State) : ByteOutcomes n 0 s s [] := by
  simp [ByteOutcomes]

theorem ByteOutcomes.cons {r : Reply} (hu : u.rxOut = s.rxOut ++ [⟨n, r⟩])
    (hr : (Delivery.mk n r).resultList.length ≤ 1) (h : ByteOutcomes n k u t ds) :
    ByteOutcomes n (k + 1) s t (⟨n, r⟩ :: ds) := by
  obtain ⟨hout, hlen, hds⟩ := h
  refine ⟨by simp [hout, hu], by simp [hlen], ?_⟩
  rw [List.forall_mem_cons]
  exact ⟨⟨rfl, hr⟩, hds⟩

end

section
variable {n : RxId} {s : State}

/-- One step per byte on a faulted Reassembler (R135, log 3). -/
theorem runSteps_rxBytes_faulted (hf : (s.rx n).fault = true) (c : List Byte) (more : List Request) :
    ∃ t ds, runSteps c.length { s with pending := c.map (.rxByte n) ++ more } = .next t ∧
      ByteOutcomes n c.length s t ds ∧ (t.rx n).fault = true := by
  induction c generalizing s with
  | nil => exact ⟨_, [], rfl, .nil n s, hf⟩
  | cons b c ih =>
    obtain ⟨t, ds, hrun, hds, ht⟩ := ih (s := s.deliver n .bufferOverflow) hf
    exact ⟨t, _, (runSteps_next (step_rxByte_faulted _ hf b)).trans hrun, .cons rfl (Nat.zero_le _) hds, ht⟩

/-- R117: one step per byte of a chunk overflows when FEED of the chunk does, and else gives its results and its
buffer. -/
theorem runSteps_rxBytes (hr : Ready n s) (hs : Settled (s.rx n).rxbuf) (c : List Byte) (more : List Request) :
    ∃ t ds, runSteps c.length { s with pending := c.map (.rxByte n) ++ more } = .next t ∧
      ByteOutcomes n c.length s t ds ∧
      ((feedBuf s.cfg.bufCap (s.rx n).rxbuf c = none ∧ (t.rx n).fault = true) ∨
        ∃ left, feedBuf s.cfg.bufCap (s.rx n).rxbuf c = some (ds.flatMap Delivery.resultList, left) ∧
          t.rx n = { fault := false, rxbuf := left, feed := none }) := by
  induction c generalizing s with
  | nil => exact ⟨_, [], rfl, .nil n s, .inr ⟨_, feedBuf_nil hs, hr.rx_eq⟩⟩
  | cons b c ih =>
    have hchunk : feedBuf s.cfg.bufCap (s.rx n).rxbuf (b :: c) = _ := feedBuf_append _ _ [b] c
    have hstep := step_rxByte_eq_feed (c.map (.rxByte n) ++ more) hr hs b
    cases hb : feedBuf s.cfg.bufCap (s.rx n).rxbuf [b] with
    | none =>
      have hfirst := hstep.trans (exec_feed_overflow (s := { s with pending := c.map (.rxByte n) ++ more }) hr hb)
      obtain ⟨t, ds, hrun, hds, ht⟩ := runSteps_rxBytes_faulted (n := n) (s := s.takeOverflow n) (by simp) c more
      rw [hb] at hchunk
      exact ⟨t, _, (runSteps_next hfirst).trans hrun, .cons rfl (Nat.zero_le _) hds, .inl ⟨hchunk, ht⟩⟩
    | some o =>
      obtain ⟨rb, lb⟩ := o
      have hfirst := hstep.trans (exec_feed_fits (s := { s with pending := c.map (.rxByte n) ++ more }) hr hb)
      obtain ⟨t, ds, hrun, hds, ht⟩ :=
        ih (ready_fed hr lb (.results rb)) (by simpa using feedBuf_left_settled hs hb)
      rw [hb] at hchunk
      refine ⟨t, _, (runSteps_next hfirst).trans hrun, .cons rfl (feedBuf_singleton_results hs hb) hds, ?_⟩
      simp only [State.deliver_cfg, State.setBuf_cfg, State.deliver_rx, State.setBuf_rx_same] at ht
      rcases ht with ⟨hfeed, hfault⟩ | ⟨left, hfeed, hrx⟩
      · exact .inl ⟨by simpa [hfeed] using hchunk, hfault⟩
      · exact .inr ⟨left, by simpa [hfeed] using hchunk, hrx⟩

end

/-- Settles O46: one step per byte and one FEED end in the same Reassembler, with the results in the same order, unless
both overflow. -/
theorem byteSerialEqualsFeed : Obligations.ByteSerialEqualsFeed := by
  intro n c s more hr hs
  obtain ⟨t, ds, hrun, ⟨hout, hlen, hds⟩, hend⟩ := runSteps_rxBytes hr hs c more
  have hrm : Ready n { s with pending := more } := hr
  rcases hend with ⟨hfeed, hfault⟩ | ⟨left, hfeed, hrx⟩
  · refine ⟨t, _, ds, hrun, exec_feed_overflow hrm hfeed, hout, hlen, hds, ?_⟩
    simp [hfault, feedBuf_none_ne hfeed]
  · obtain ⟨u, hexec, hurx, -, -, -, -, -, huout, -⟩ := feeds_of_feedBuf hrm hfeed
    refine ⟨t, u, ds, hrun, hexec, hout, hlen, hds, ?_⟩
    simpa [hrx, hurx] using huout

end Sys2Proof.Machine
end

section
/-!
SUPPORT. The two channels to the host (R6, R138): what was handed over stands, and each side keeps to its own.
-/

namespace Sys2Proof.Machine

/-- From `s` to `t` BUF_CAP, the queue of requests and what the Encoder has are as before, and only outcomes of
Reassembler `n` were handed over. -/
def HandsOverOnly (n : RxId) (s t : State) : Prop :=
  t.cfg = s.cfg ∧ t.pending = s.pending ∧ t.encOut = s.encOut ∧ t.payloadOpen = s.payloadOpen ∧
    ∃ out, t.rxOut = s.rxOut ++ out ∧ ∀ d ∈ out, d.rx = n

section
variable {n : RxId} {c : List Byte} {s t : State}

theorem RxEffect.handsOverOnly (h : RxEffect n c s t) : HandsOverOnly n s t := by
  cases h with
  | faultAgain | overflow | fed | held | collected | returned => exact ⟨rfl, rfl, rfl, rfl, [_], rfl, by simp⟩
  | appended | moved | extracted | emitted => exact ⟨rfl, rfl, rfl, rfl, [], by simp, by simp⟩

/-- Constructing a Reassembler anew hands nothing over. -/
theorem handsOverOnly_of_construct (h : t = s.construct n ∨ RxEffect n c (s.construct n) t) : HandsOverOnly n s t := by
  rcases h with rfl | he
  · exact ⟨rfl, rfl, rfl, rfl, [], by simp, by simp⟩
  · exact he.handsOverOnly

end

/-- Settles O48: the Encoder's instructions write ENC_OUT and the open payload; every effect on a Reassembler, and its
construction, hands over only its own outcomes. -/
theorem channelsOnlyGrow : Obligations.ChannelsOnlyGrow := by
  intro i s t h
  rcases exec_cases h with ⟨hi, l, o, rfl⟩ | ⟨n, hi, he⟩
  · exact ⟨rfl, rfl, ⟨l, rfl⟩, ⟨[], by simp⟩, fun _ => ⟨rfl, rfl⟩, fun n hn => by simp [hi] at hn⟩
  · obtain ⟨hcfg, hpending, henc, hopen, out, hout, hown⟩ : HandsOverOnly n s t := by
      rcases he with ⟨-, he⟩ | ⟨-, he⟩
      · exact he.handsOverOnly
      · exact handsOverOnly_of_construct he
    refine ⟨hcfg, hpending, ⟨[], by simp [henc]⟩, ⟨out, hout⟩, fun hn => by simp [hi] at hn, fun m hm => ?_⟩
    obtain rfl : n = m := Option.some.inj (hi.symm.trans hm)
    exact ⟨henc, hopen, by simpa [hout] using hown⟩

end Sys2Proof.Machine
end

section
/-!
SUPPORT. RESET (R160, R161, R141) and how far the loop of FEED goes (R99, R175).
-/

namespace Sys2Proof.Machine

/-- R99, R175: every result costs the loop the START and the END of a frame; the bytes left come on top. -/
theorem Drains.results_bound {b left : List Byte} {rs : List DecodeResult} (h : Drains b rs left) :
    2 * rs.length + left.length ≤ b.length := by
  induction h with
  | noStart | noEnd => simp
  | frame _ _ _ _ ih =>
    simp only [List.length_append, List.length_cons]
    omega

/-- R141, R160: a Reassembler constructed anew takes a FEED, whatever it was before. -/
theorem ready_construct (n : RxId) (s : State) : Ready n (s.construct n) := by
  simp [Ready, Reassembler.fresh]

theorem rxFrame_construct (n : RxId) (s : State) : RxFrame n s (s.construct n) [] :=
  RxFrame.of_construct ⟨rfl, rfl, rfl, rfl, rfl, (List.append_nil _).symm, fun _ _ => rfl⟩

/-- Settles O16: FEED delivers what the loop gives; the loop answers once for every buffer, within the bound, and leaves
a settled buffer. -/
theorem loopEnds : Obligations.LoopEnds := by
  intro n c s hr hc
  have hdrains := drains_drain ((s.rx n).rxbuf ++ c)
  refine ⟨_, _, feeds_of_drains hr hc hdrains, hdrains.results_bound, drain_left_settled _, fun rs' left' h => ?_⟩
  have hdrain : drain ((s.rx n).rxbuf ++ c) = (rs', left') := by
    rcases h with hfeeds | hdrains'
    · rw [feeds_iff hr, hc] at hfeeds
      exact Option.some.inj hfeeds
    · exact drains_iff.mp hdrains'
  simp [hdrain]

/-- Settles O7: the Reassembler is constructed anew, and the FEED of the empty chunk finds it idle and empty. -/
theorem resetConstructs : Obligations.ResetConstructs := by
  intro n s
  have hempty : ((s.construct n).rx n).rxbuf = [] := by simp [Reassembler.fresh]
  refine ⟨s.construct n, rfl, s.construct_rx_same n, rxFrame_construct n s, exec_feed_fits (ready_construct n s) ?_⟩
  rw [hempty]
  exact feedBuf_nil (.inl List.not_mem_nil)

end Sys2Proof.Machine
end

section
/-!
SUPPORT. Decoder and wire words (R60 to R72): decoding inverts encoding for every well-formed instruction, and what
decodes is its own wire word.
-/

namespace Sys2Proof.Machine

section
variable {i j : Instr} {n m : RxId} {b v : Byte}

/-! ### Decoding a wire word -/

/-- The Reassembler an instruction acts on is the one the decoder is asked for. -/
theorem target_unique (h : i.target = none ∨ i.target = some n) (hi : i.target = some m) : m = n := by
  rcases h with h | h
  · cases hi.symm.trans h
  · exact Option.some.inj (hi.symm.trans h)

/-- A byte that the more specific row of its context leaves decodes to the byte-class row. -/
theorem ok_of_ne (h : b ≠ v) (rest : List Byte) :
    (.ok (if b = v then i else j, rest) : Except DecodeError (Instr × List Byte)) = .ok (j, rest) := by
  rw [if_neg h]

theorem decodePayload_plain (h : WellFormed (.encPlain b) = true) : decodePayload b = .encPlain b := by
  obtain ⟨⟨hs, he⟩, hx⟩ : (b ≠ START ∧ b ≠ END) ∧ b ≠ ESCAPE := by simpa [WellFormed] using h
  rw [decodePayload, if_neg hs, if_neg he, if_neg hx]

end

/-- Settles O1: a row of one fixed byte is the first of its context's table; a byte-class row carries a byte that the
more specific rows leave to it; the operations have no word. -/
theorem decodeOfEncode : Obligations.DecodeOfEncode := by
  intro i k w rest n hw he ht
  cases i with
  | encode | feed | reset | decode | rxAppend | rxScanStart | rxScanEnd | rxExtract | rxUnescape | rxEmitErr | rxEmitOk
  | rxReturn => cases he
  | encStart | encStuffStart | encStuffEnd | encStuffEscape | encEnd => cases he; rfl
  | encPlain d =>
    cases he
    exact congrArg (fun j => Except.ok (j, rest)) (decodePayload_plain hw)
  | scanStart m | scanEnd m | unescEscape m | unescComplement m c | pairIllegal m | byteHuntStart m
  | byteCollectEnd m =>
    cases he
    obtain rfl := target_unique ht rfl
    rfl
  | scanSkip m b | scanBody m b | unescLiteral m b | byteHuntSkip m b | byteCollectBody m b =>
    cases he
    obtain rfl := target_unique ht rfl
    exact ok_of_ne (bne_iff_ne.mp hw) rest
  | pair m c =>
    cases he
    obtain rfl := target_unique ht rfl
    exact decodeSymbol_escape.trans (ok_of_ne (bne_iff_ne.mp hw) rest)

/-! ### What decodes is its own wire word -/

/-- In context `k` the bytes `w` are the wire word of `i`, which acts on Reassembler `n` or on none. A literal met
symbol by symbol is the one of the byte-by-byte context. -/
def IsWordOf (k : Ctx) (n : RxId) (i : Instr) (w : List Byte) : Prop :=
  (i.target = none ∨ i.target = some n) ∧ (encode i = some (k, w) ∨ (k = .symbol ∧ encode i = some (.clear, w)))

section
variable {i j : Instr} {k : Ctx} {n : RxId} {b v : Byte} {bs rest : List Byte}

/-- A row of one fixed byte, and the row that has the other bytes. -/
theorem IsWordOf.ite {pre : List Byte} (hi : IsWordOf k n i (pre ++ [v])) (hj : IsWordOf k n j (pre ++ [b])) :
    IsWordOf k n (if b = v then i else j) (pre ++ [b]) := by
  split
  · subst v; exact hi
  · exact hj

theorem decodePayload_isWordOf (n : RxId) (d : Byte) : IsWordOf .payload n (decodePayload d) [d] :=
  .ite (pre := []) ⟨.inl rfl, .inl rfl⟩ <| .ite (pre := []) ⟨.inl rfl, .inl rfl⟩ <|
    .ite (pre := []) ⟨.inl rfl, .inl rfl⟩ ⟨.inl rfl, .inl rfl⟩

theorem decodeSymbol_isWordOf (h : decodeSymbol n b bs = .ok (i, rest)) :
    ∃ w, b :: bs = w ++ rest ∧ IsWordOf .symbol n i w := by
  by_cases hb : b = ESCAPE
  · subst hb
    cases bs with
    | nil => cases h
    | cons c bs =>
      rw [decodeSymbol_escape] at h
      cases h
      exact ⟨[ESCAPE, c], rfl, .ite (pre := [ESCAPE]) ⟨.inr rfl, .inl rfl⟩ ⟨.inr rfl, .inl rfl⟩⟩
  · rw [decodeSymbol_literal hb] at h
    cases h
    exact ⟨[b], rfl, .inr rfl, .inr ⟨rfl, rfl⟩⟩

/-- The decoder takes exactly the wire word of what it answers off the front. -/
theorem decode_isWordOf (h : decode k n bs = .ok (i, rest)) : ∃ w, bs = w ++ rest ∧ IsWordOf k n i w := by
  cases bs with
  | nil => cases h
  | cons b bs =>
    cases k with
    | packetFirst | packetLast =>
      simp only [decode] at h
      split at h
      · subst b; cases h; exact ⟨[_], rfl, .inl rfl, .inl rfl⟩
      · cases h
    | payload => cases h; exact ⟨[b], rfl, decodePayload_isWordOf n b⟩
    | lookStart | lookEnd | clear | hunt | collect =>
      cases h
      exact ⟨[b], rfl, .ite (pre := []) ⟨.inr rfl, .inl rfl⟩ ⟨.inr rfl, .inl rfl⟩⟩
    | escaped => cases h; exact ⟨[b], rfl, .inr rfl, .inl rfl⟩
    | symbol => exact decodeSymbol_isWordOf h

end

/-- Settles O2: each context's table answers an instruction whose word is the bytes taken. -/
theorem encodeOfDecode : Obligations.EncodeOfDecode := by
  intro k n bs rest i h
  obtain ⟨w, hbs, htarget, hword⟩ := decode_isWordOf h
  exact ⟨decode_wellFormed h, htarget, w, hbs, hword⟩

/-- Settles O4: the decoder computes on each of the words. -/
theorem writtenWordsDecode : Obligations.WrittenWordsDecode :=
  ⟨rfl, rfl, rfl, rfl, rfl, rfl, rfl, rfl, rfl, rfl, rfl⟩

end Sys2Proof.Machine
end

section
/-!
SUPPORT. FEED taken any number of times (R47, R74, R104, R163): the empty chunk, a stream of chunks, a stream joined
late, and decode.
-/

namespace Sys2Proof.Machine

/-- Settles O20: the loop has nothing to do on a settled buffer. -/
theorem emptyFeedIdempotent : Obligations.EmptyFeedIdempotent := fun _ _ hr hs =>
  feeds_of_feedBuf hr (feedBuf_nil hs)

/-- Settles O29: the Reassembler just constructed is idle and empty. -/
theorem decodeIsResetThenFeed : Obligations.DecodeIsResetThenFeed := by
  refine fun n x s => ⟨⟨_, rfl, exec_decode_eq_feed n x s⟩, fun hc => ?_⟩
  have hdrains : Drains (((s.construct n).rx n).rxbuf ++ x) (drain x).1 (drain x).2 := by
    simpa [Reassembler.fresh] using drains_drain x
  obtain ⟨t, ht, hrx, hframe⟩ := feeds_of_drains (ready_construct n s) hc hdrains
  exact ⟨_, _, t, drains_drain x, (exec_decode_eq_feed n x s).trans ht, hrx, hframe.of_construct⟩

/-- R102 on one Reassembler: FEED of a chunk, then of another, is FEED of both. -/
theorem Feeds.append {n : RxId} {a b left left' : List Byte} {s : State} {rs rs' : List DecodeResult} (hr : Ready n s)
    (ha : feedBuf s.cfg.bufCap (s.rx n).rxbuf a = some (rs, left))
    (hb : Feeds n b ((s.setBuf n left).deliver n (.results rs)) rs' left') : Feeds n (a ++ b) s (rs ++ rs') left' := by
  have hb' : feedBuf s.cfg.bufCap left b = some (rs', left') := by
    simpa using (feeds_iff (ready_fed hr left (.results rs))).mp hb
  refine feeds_of_feedBuf hr ?_
  rw [feedBuf_append, ha, Option.bind_some, hb']
  rfl

/-- Settles O23: each FEED of the sequence takes the next chunk; the rest of the sequence goes on from the buffer it
left, which is settled again. -/
theorem streamView : Obligations.StreamView := by
  intro n cs
  induction cs with
  | nil =>
    intro s more hr _ hs
    exact ⟨_, [], [], _, rfl, emptyFeedIdempotent n s hr hs, hr.rx_eq, rfl, by simp, rfl, by simp, rfl⟩
  | cons c cs ih =>
    intro s more hr hc hs
    obtain ⟨ra, la, hdrains⟩ : ∃ ra la, Drains ((s.rx n).rxbuf ++ c) ra la := ⟨_, _, drains_drain _⟩
    have hfeed := feedBuf_of_drains hc hdrains
    have hrest : Settled (((s.setBuf n la).deliver n (.results ra)).rx n).rxbuf := by
      simpa using feedBuf_left_settled hs hfeed
    obtain ⟨t, ds, rs, left, hrun, hfeeds, hrx, hpending, hout, hlen, hown, hresults⟩ :=
      ih _ more (ready_fed hr la (.results ra)) hc hrest
    refine ⟨t, { rx := n, reply := .results ra } :: ds, ra ++ rs, left,
      (runSteps_next (step_feed_fits _ hr hfeed)).trans hrun, hfeeds.append hr hfeed, hrx, hpending, by simp [hout],
      congrArg (· + 1) hlen, List.forall_mem_cons.mpr ⟨rfl, hown⟩, ?_⟩
    rw [List.flatMap_cons, hresults, Delivery.resultList_results]

/-- R64: behind the first byte of a packet there is no START. -/
theorem start_not_mem_packet_drop {p q : List Byte} {k : Nat} (h : Encodes p q) (hk : 1 ≤ k) : START ∉ q.drop k := by
  obtain ⟨u, rfl, hu⟩ := encodes_iff.mp h
  obtain ⟨k, rfl⟩ := Nat.exists_eq_add_of_le' hk
  have hne : START ≠ END := by decide
  have hrest : START ∉ u ++ [END] := by simp [hu.markers_not_mem.1, hne]
  exact fun hm => hrest (List.mem_of_mem_drop hm)

/-- Settles O27: the rest of the packet is noise before the first whole one. -/
theorem joinMidStream : Obligations.JoinMidStream := by
  intro n p q k pqs s hr hc hs hq hk henc hne
  obtain ⟨x, pqs, rfl⟩ := List.exists_cons_of_ne_nil hne
  rw [List.forall_mem_cons] at henc
  obtain ⟨hx, hpqs⟩ := henc
  have hnoise : START ∉ (s.rx n).rxbuf ++ q.drop k := by simp [hs, start_not_mem_packet_drop hq hk]
  refine feeds_of_drains hr hc ?_
  rw [List.map_cons, List.flatten_cons, ← List.append_assoc, ← List.append_assoc]
  exact (drains_noise_packet hnoise hx).append (drains_packets hpqs)

end Sys2Proof.Machine
end

section
/-!
SUPPORT. The Encoder's events out of their place (R110), and its bit at reset.
-/

namespace Sys2Proof.Machine

section
variable {s : State}

theorem exec_encStart_refused (ho : s.payloadOpen = true) : exec .encStart s = .refused .payloadAlreadyOpen :=
  if_pos ho

theorem whenPayloadOpen_closed (ho : s.payloadOpen = false) (t : State) :
    whenPayloadOpen s t = .refused .payloadNotOpen :=
  if_neg (by simp [ho])

theorem exec_encEnd (ho : s.payloadOpen = true) :
    exec .encEnd s = .next ((s.emit [END]).setPayloadOpen false) :=
  whenPayloadOpen_open ho _

theorem exec_encEnd_refused (ho : s.payloadOpen = false) : exec .encEnd s = .refused .payloadNotOpen :=
  whenPayloadOpen_closed ho _

end

/-- Settles O13: each row goes through the guard of its side of the open-payload bit; ENC.PLAIN looks at its operand
before it. -/
theorem encoderRowsRefusedElsewhere : Obligations.EncoderRowsRefusedElsewhere := by
  refine fun s => ⟨exec_encStart_refused, fun ho i hi => ?_⟩
  have hguard := whenPayloadOpen_closed ho
  simp only [List.mem_cons, List.not_mem_nil, or_false] at hi
  rcases hi with ⟨d, hs, he, hx, rfl⟩ | rfl | rfl | rfl | rfl
  · exact (if_neg (not_special hs he hx)).trans (hguard _)
  all_goals exact hguard _

/-- Settles O54: the two guards of the bit, at reset and behind ENC.START. -/
theorem noPayloadOpenAtReset : Obligations.NoPayloadOpenAtReset :=
  ⟨rfl, ⟨_, exec_encStart rfl, rfl, _, exec_encEnd rfl, rfl⟩, exec_encEnd_refused rfl⟩

end Sys2Proof.Machine
end

section
/-!
SUPPORT. The four BYTE rows in and out of their phase (R112 to R116, R120).
-/

namespace Sys2Proof.Machine

section
variable {n : RxId} {b : Byte} {s : State} {buf g u : List Byte} {i : Instr} {rs : List DecodeResult}

/-! ### Out of phase -/

theorem whenPhase_wrong {p : Phase} (hr : Ready n s) (hp : phaseOf (s.rx n).rxbuf ≠ p) (go : Result) :
    whenPhase n p s go = .refused .wrongPhase :=
  (whenIdle_ready hr _).trans (if_neg hp)

/-! ### In phase -/

theorem orphans_append (hg : START ∉ g) (u : List Byte) : orphans (g ++ START :: u) = g := by
  simp [orphans, find_append hg]

/-- An instruction that replaces RXBUF by `buf` and hands over one outcome leaves everything else; what holds of `buf`
holds of RXBUF after it. -/
theorem completes_of_setBuf_deliver (P : List Byte → Prop) (hr : Ready n s)
    (h : exec i s = .next ((s.setBuf n buf).deliver n (.results rs))) (hbuf : P buf) :
    ∃ t, exec i s = .next t ∧ RxFrame n s t [.results rs] ∧
      t.rx n = { fault := false, rxbuf := buf, feed := none } ∧ P (t.rx n).rxbuf :=
  ⟨_, h, ⟨rfl, rfl, rfl, rfl, rfl, rfl, fun _ hm => by simp [hm]⟩, by simp [hr.1, hr.2], by simpa using hbuf⟩

/-- A buffer that has room for one more byte under either kind of BUF_CAP (R120). -/
def HasRoom (cap : Option Nat) (buf : List Byte) : Prop :=
  ∀ k, cap = some k → buf.length < k

/-- R113 to R115: below BUF_CAP the byte is held. -/
theorem holdByte_fits (hc : HasRoom s.cfg.bufCap (s.rx n).rxbuf) (b : Byte) :
    holdByte n b s = (s.setBuf n ((s.rx n).rxbuf ++ [b])).deliver n (.results []) := by
  have hfits : overCap s.cfg.bufCap ((s.rx n).rxbuf ++ [b]) = false :=
    overCap_eq_false.mpr fun k hk => by simpa using hc k hk
  rw [holdByte, hfits]
  rfl

theorem exec_byteHuntSkip (hr : Ready n s) (hg : START ∉ (s.rx n).rxbuf) (hc : HasRoom s.cfg.bufCap (s.rx n).rxbuf)
    (hb : b ≠ START) :
    exec (.byteHuntSkip n b) s = .next ((s.setBuf n ((s.rx n).rxbuf ++ [b])).deliver n (.results [])) :=
  (if_neg hb).trans ((whenPhase_ready hr (phaseOf_hunt.mpr hg) _).trans (congrArg _ (holdByte_fits hc b)))

theorem exec_byteHuntStart (hr : Ready n s) (hg : START ∉ (s.rx n).rxbuf)
    (hc : HasRoom s.cfg.bufCap (s.rx n).rxbuf) :
    exec (.byteHuntStart n) s = .next ((s.setBuf n ((s.rx n).rxbuf ++ [START])).deliver n (.results [])) :=
  (whenPhase_ready hr (phaseOf_hunt.mpr hg) _).trans (congrArg _ (holdByte_fits hc START))

theorem exec_byteCollectBody (hr : Ready n s) (hm : START ∈ (s.rx n).rxbuf)
    (hc : HasRoom s.cfg.bufCap (s.rx n).rxbuf) (hb : b ≠ END) :
    exec (.byteCollectBody n b) s = .next ((s.setBuf n ((s.rx n).rxbuf ++ [b])).deliver n (.results [])) :=
  (if_neg hb).trans ((whenPhase_ready hr (phaseOf_collect.mpr hm) _).trans (congrArg _ (holdByte_fits hc b)))

/-- R112: what a buffer with an open frame shows. -/
def ShowsOpenFrame (g u buf : List Byte) : Prop :=
  phaseOf buf = .collect ∧ orphans buf = g ∧ openTail buf = u

theorem showsOpenFrame (hg : START ∉ g) (u : List Byte) : ShowsOpenFrame g u (g ++ START :: u) :=
  ⟨phaseOf_collect.mpr (by simp), orphans_append hg u, openTail_append hg u⟩

end

/-- Settles O43: below BUF_CAP the rows that hold a byte put it behind the buffer; the END consumes the buffer whole. -/
theorem byteSteps : Obligations.ByteSteps := by
  intro n s g u b hr hg
  refine ⟨fun hbuf hc => ?_, fun hbuf => ⟨fun hb hc => ?_, ?_⟩⟩
  · subst hbuf
    refine ⟨fun hb => ?_, ?_⟩
    · exact completes_of_setBuf_deliver (phaseOf · = .hunt) hr (exec_byteHuntSkip hr hg hc hb)
        (phaseOf_hunt.mpr (by simp [hg, hb.symm]))
    · exact completes_of_setBuf_deliver (ShowsOpenFrame _ []) hr (exec_byteHuntStart hr hg hc) (showsOpenFrame hg [])
  · have hm : START ∈ (s.rx n).rxbuf := by simp [hbuf]
    have hlen : (s.rx n).rxbuf.length = g.length + 1 + u.length := by
      simp only [hbuf, List.length_append, List.length_cons]
      omega
    have hroom : HasRoom s.cfg.bufCap (s.rx n).rxbuf := fun k hk => hlen ▸ hc k hk
    have hheld : (s.rx n).rxbuf ++ [b] = g ++ START :: (u ++ [b]) := by simp [hbuf]
    have hexec := exec_byteCollectBody hr hm hroom hb
    rw [hheld] at hexec
    exact completes_of_setBuf_deliver (ShowsOpenFrame g (u ++ [b])) hr hexec (showsOpenFrame hg _)
  · exact ⟨unescape u, (completes_of_setBuf_deliver (phaseOf · = .hunt) hr (exec_byteCollectEnd hr hbuf hg) rfl).imp
      fun t ht => ⟨unescape_iff.mp rfl, ht⟩⟩

/-- Settles O45: the phase a buffer shows is COLLECT exactly when a START is in it. -/
theorem bytePhases : Obligations.BytePhases := by
  intro n s b hr
  refine ⟨fun hm => ?_, fun hm => ?_⟩
  · have hwrong := whenPhase_wrong (p := .hunt) hr (mt phaseOf_hunt.mp (not_not_intro hm))
    exact ⟨fun hb => (if_neg hb).trans (hwrong _), hwrong _⟩
  · have hwrong := whenPhase_wrong (p := .collect) hr (mt phaseOf_collect.mp hm)
    exact ⟨fun hb => (if_neg hb).trans (hwrong _), hwrong _⟩

end Sys2Proof.Machine
end
